-- ==== Sys2Proof/Word.lean ====
section
/-! DEFINITION. The word types of the machine: 00_scope.md R6 (widths) and R8 (unsigned 32-bit values). -/

namespace Sys2Proof

/-- A 32-bit word: a register value, a memory word, a `pc` value, a segment identifier or a word offset (R6, R8). -/
abbrev Word := BitVec 32

/-- One byte of the two byte streams (10_state.md R34, R35). Memory holds no bytes (20_memory.md R50). -/
abbrev Byte := BitVec 8

/-- A 3-bit register index, so that an index outside 0 to 7 cannot be presented (R6, 10_state.md R22, 60_exceptions.md R236). -/
abbrev Reg := BitVec 3

end Sys2Proof
end

