-- ==== Sys2Proof/Config.lean ====
section
/-! DEFINITION. What an implementation fixes (00_scope.md R6) and the one family of free values of this hardware:
the decoder outputs that the spec calls don't-cares (30_encoding.md R99). The two OPEN parameters of R6, `allocOracle` and
`inputSource`, are plain data of State, because a run takes them from its environment (notes/assumptions/2.md, 3.md). -/

namespace Sys2Proof.Config

/-- The largest number of segment slots, 2^32 (R6, 20_memory.md R51, D10). -/
def maxSlots : Nat := 4294967296

/-- The largest segment, 2^32 − 1 words (R6, 20_memory.md R51, D15). -/
def maxSegmentLen : Nat := 4294967295

/-- 2^25, the largest immediate plus one: the immediate has 25 bits (R6, 30_encoding.md R95). -/
def immBound : Nat := 33554432

/-- DESIGN CHOICE (notes/assumptions/9.md), safe: the decoder's `op` output while `valid = 0`, a don't-care of R99. -/
opaque dontCareOp : Word → BitVec 4

/-- DESIGN CHOICE (notes/assumptions/9.md), safe: the decoder's `ra` output while `valid = 0`, a don't-care of R99. -/
opaque dontCareRa : Word → Reg

/-- DESIGN CHOICE (notes/assumptions/9.md), safe: the decoder's `rb` output while `valid = 0`, a don't-care of R99. -/
opaque dontCareRb : Word → Reg

/-- DESIGN CHOICE (notes/assumptions/9.md), safe: the decoder's `rc` output while `valid = 0`, a don't-care of R99. -/
opaque dontCareRc : Word → Reg

/-- DESIGN CHOICE (notes/assumptions/9.md), safe: the decoder's `imm` output while `valid = 0`, a don't-care of R99. -/
opaque dontCareImm : Word → Word

end Sys2Proof.Config
end

