-- ==== Sys2Proof/Syntax.lean ====
section
/-! DEFINITION. The abstract syntax: one constructor per row of the opcode map (30_encoding.md R94), carrying exactly the
fields that row uses (R97), and the pseudo-instructions of R102 as the core instructions they expand to. -/

namespace Sys2Proof

/-- The 14 operations of the rum ISA (00_scope.md R2, 30_encoding.md R94), in opcode order. -/
inductive Instr where
  /-- Opcode 0, Conditional Move (41_move_and_arith.md R150). -/
  | cmov (ra rb rc : Reg)
  /-- Opcode 1, Segment Load (42_segment_access.md R160). -/
  | load (ra rb rc : Reg)
  /-- Opcode 2, Segment Store (42_segment_access.md R161). -/
  | store (ra rb rc : Reg)
  /-- Opcode 3, Add (41_move_and_arith.md R151). -/
  | add (ra rb rc : Reg)
  /-- Opcode 4, Multiply (41_move_and_arith.md R152). -/
  | mul (ra rb rc : Reg)
  /-- Opcode 5, Divide (41_move_and_arith.md R153). -/
  | div (ra rb rc : Reg)
  /-- Opcode 6, Bitwise NAND (41_move_and_arith.md R154). -/
  | nand (ra rb rc : Reg)
  /-- Opcode 7, Halt; every field is ignored (43_halt_and_load_program.md R170). -/
  | halt
  /-- Opcode 8, Map Segment; `ra` is ignored (44_segment_alloc.md R180). -/
  | map (rb rc : Reg)
  /-- Opcode 9, Unmap Segment; `ra` and `rb` are ignored (44_segment_alloc.md R181). -/
  | unmap (rc : Reg)
  /-- Opcode 10, Output; `ra` and `rb` are ignored (45_io.md R190). -/
  | out (rc : Reg)
  /-- Opcode 11, Input; `ra` and `rb` are ignored (45_io.md R191). The table's mnemonic is IN. -/
  | inp (rc : Reg)
  /-- Opcode 12, Load Program; `ra` is ignored (43_halt_and_load_program.md R171). -/
  | loadp (rb rc : Reg)
  /-- Opcode 13, Load Immediate; `imm` is the 25-bit immediate already widened to 32 bits (00_scope.md R10, 46_load_immediate.md R200). -/
  | li (ra : Reg) (imm : Word)
deriving DecidableEq, Repr

/-- The opcode number of an instruction (30_encoding.md R94). -/
def Instr.opcode : Instr → BitVec 4
  | .cmov _ _ _ => 0
  | .load _ _ _ => 1
  | .store _ _ _ => 2
  | .add _ _ _ => 3
  | .mul _ _ _ => 4
  | .div _ _ _ => 5
  | .nand _ _ _ => 6
  | .halt => 7
  | .map _ _ => 8
  | .unmap _ => 9
  | .out _ => 10
  | .inp _ => 11
  | .loadp _ _ => 12
  | .li _ _ => 13

/-- `NOP` expands to `CMOV r0, r0, r0` (30_encoding.md R102). -/
def Pseudo.nop : List Instr := [.cmov 0 0 0]

/-- `NOT ra, rb` expands to `NAND ra, rb, rb` (30_encoding.md R102). -/
def Pseudo.not (ra rb : Reg) : List Instr := [.nand ra rb rb]

/-- `AND ra, rb, rc` expands to `NAND ra, rb, rc` and then `NAND ra, ra, ra` (30_encoding.md R102). -/
def Pseudo.and (ra rb rc : Reg) : List Instr := [.nand ra rb rc, .nand ra ra ra]

/-- `JMP rz, rc` expands to `LOADP rz, rc`; the programmer guarantees `x[rz] = 0` (30_encoding.md R102). -/
def Pseudo.jmp (rz rc : Reg) : List Instr := [.loadp rz rc]

end Sys2Proof
end

