-- ==== Sys2Proof/WellFormed.lean ====
section
/-! DEFINITION. Which terms of `Instr` are instructions of the machine. Register indices are typed (60_exceptions.md R236), so
the one check is that an immediate fits its 25 bits (30_encoding.md R93, R95, R100). -/

namespace Sys2Proof

/-- The immediate of LI is at most 0x01FFFFFF (30_encoding.md R95, R100); nothing else can be ill formed. -/
def Instr.wellFormed : Instr → Bool
  | .cmov _ _ _ => true
  | .load _ _ _ => true
  | .store _ _ _ => true
  | .add _ _ _ => true
  | .mul _ _ _ => true
  | .div _ _ _ => true
  | .nand _ _ _ => true
  | .halt => true
  | .map _ _ => true
  | .unmap _ => true
  | .out _ => true
  | .inp _ => true
  | .loadp _ _ => true
  | .li _ imm => decide (imm.toNat < Config.immBound)

end Sys2Proof
end

