-- ==== Sys2Proof/Decode.lean ====
section
/-! DEFINITION. The decoder (30_encoding.md R90 to R99) and, after it, the encoder (R100). Decoding is a pure total function of one
32-bit word (R98). -/

namespace Sys2Proof

/-- Why a word is no instruction. -/
inductive DecodeError where
  /-- `w[31:28]` is 14 or 15 (30_encoding.md R96); the cycle raises INVALID_OPCODE. -/
  | invalidOpcode (op : BitVec 4)
deriving DecidableEq, Repr

/-- `w[31:28]`, the opcode field of both formats (30_encoding.md R91). -/
def fieldOp (w : Word) : BitVec 4 := w.extractLsb' 28 4

/-- `w[8:6]`, register index A of format RRR (30_encoding.md R92). -/
def fieldRa (w : Word) : Reg := w.extractLsb' 6 3

/-- `w[5:3]`, register index B of format RRR (30_encoding.md R92). -/
def fieldRb (w : Word) : Reg := w.extractLsb' 3 3

/-- `w[2:0]`, register index C of format RRR (30_encoding.md R92). -/
def fieldRc (w : Word) : Reg := w.extractLsb' 0 3

/-- `w[27:25]`, the destination index of format RI (30_encoding.md R93). -/
def fieldRaRi (w : Word) : Reg := w.extractLsb' 25 3

/-- `zext_32(w[24:0])`, the immediate of format RI (30_encoding.md R93, R95). -/
def fieldImm (w : Word) : Word := (w.extractLsb' 0 25).setWidth 32

/-- `Decode(w)` of 30_encoding.md R98: the instruction, or the error that says there is none. -/
def decode (w : Word) : Except DecodeError Instr :=
  match (fieldOp w).toNat with
  | 0 => .ok (.cmov (fieldRa w) (fieldRb w) (fieldRc w))
  | 1 => .ok (.load (fieldRa w) (fieldRb w) (fieldRc w))
  | 2 => .ok (.store (fieldRa w) (fieldRb w) (fieldRc w))
  | 3 => .ok (.add (fieldRa w) (fieldRb w) (fieldRc w))
  | 4 => .ok (.mul (fieldRa w) (fieldRb w) (fieldRc w))
  | 5 => .ok (.div (fieldRa w) (fieldRb w) (fieldRc w))
  | 6 => .ok (.nand (fieldRa w) (fieldRb w) (fieldRc w))
  | 7 => .ok .halt
  | 8 => .ok (.map (fieldRb w) (fieldRc w))
  | 9 => .ok (.unmap (fieldRc w))
  | 10 => .ok (.out (fieldRc w))
  | 11 => .ok (.inp (fieldRc w))
  | 12 => .ok (.loadp (fieldRb w) (fieldRc w))
  | 13 => .ok (.li (fieldRaRi w) (fieldImm w))
  | _ => .error (.invalidOpcode (fieldOp w))

/-- The output wires of the decoder as a combinational unit (30_encoding.md R99). -/
structure DecoderOutputs where
  valid : Bool
  op : BitVec 4
  ra : Reg
  rb : Reg
  rc : Reg
  imm : Word
deriving DecidableEq, Repr

/-- The decoder's outputs (30_encoding.md R99): `rb`, `rc` and `imm` are driven whatever the format; when `valid = 0` every other
output is a don't-care, a free value of Config (notes/assumptions/9.md). -/
def decoderOutputs (w : Word) : DecoderOutputs :=
  if (fieldOp w).toNat ≤ 13 then
    { valid := true
      op := fieldOp w
      ra := if (fieldOp w).toNat = 13 then fieldRaRi w else fieldRa w
      rb := fieldRb w
      rc := fieldRc w
      imm := fieldImm w }
  else
    { valid := false
      op := Config.dontCareOp w
      ra := Config.dontCareRa w
      rb := Config.dontCareRb w
      rc := Config.dontCareRc w
      imm := Config.dontCareImm w }

/-- The instruction the output wires describe: `valid` and `op` select it, and it takes the fields its format has (30_encoding.md R94, R99). -/
def instrOfOutputs (d : DecoderOutputs) : Option Instr :=
  if d.valid then
    match d.op.toNat with
    | 0 => some (.cmov d.ra d.rb d.rc)
    | 1 => some (.load d.ra d.rb d.rc)
    | 2 => some (.store d.ra d.rb d.rc)
    | 3 => some (.add d.ra d.rb d.rc)
    | 4 => some (.mul d.ra d.rb d.rc)
    | 5 => some (.div d.ra d.rb d.rc)
    | 6 => some (.nand d.ra d.rb d.rc)
    | 7 => some .halt
    | 8 => some (.map d.rb d.rc)
    | 9 => some (.unmap d.rc)
    | 10 => some (.out d.rc)
    | 11 => some (.inp d.rc)
    | 12 => some (.loadp d.rb d.rc)
    | 13 => some (.li d.ra d.imm)
    | _ => none
  else none

/-- `enc_rrr(op, a, b, c)` of 30_encoding.md R100; bits [27:9] are 0. -/
def encRrr (op : BitVec 4) (a b c : Reg) : Word :=
  (op.setWidth 32 <<< 28) ||| (a.setWidth 32 <<< 6) ||| (b.setWidth 32 <<< 3) ||| c.setWidth 32

/-- `enc_ri(a, v)` of 30_encoding.md R100, for `v` of at most 25 bits. -/
def encRi (a : Reg) (v : Word) : Word :=
  (13#32 <<< 28) ||| (a.setWidth 32 <<< 25) ||| v

/-- The canonical word of an instruction: unused fields and ignored bits are 0 (30_encoding.md R100). -/
def encode : Instr → Word
  | .cmov ra rb rc => encRrr 0 ra rb rc
  | .load ra rb rc => encRrr 1 ra rb rc
  | .store ra rb rc => encRrr 2 ra rb rc
  | .add ra rb rc => encRrr 3 ra rb rc
  | .mul ra rb rc => encRrr 4 ra rb rc
  | .div ra rb rc => encRrr 5 ra rb rc
  | .nand ra rb rc => encRrr 6 ra rb rc
  | .halt => encRrr 7 0 0 0
  | .map rb rc => encRrr 8 0 rb rc
  | .unmap rc => encRrr 9 0 0 rc
  | .out rc => encRrr 10 0 0 rc
  | .inp rc => encRrr 11 0 0 rc
  | .loadp rb rc => encRrr 12 0 rb rc
  | .li ra imm => encRi ra imm

/-- The bits of a word that its instruction depends on: the opcode and the fields the instruction uses (30_encoding.md R94, R96, R97). -/
def usedBits : Instr → Word
  | .cmov _ _ _ => 0xF00001FF
  | .load _ _ _ => 0xF00001FF
  | .store _ _ _ => 0xF00001FF
  | .add _ _ _ => 0xF00001FF
  | .mul _ _ _ => 0xF00001FF
  | .div _ _ _ => 0xF00001FF
  | .nand _ _ _ => 0xF00001FF
  | .halt => 0xF0000000
  | .map _ _ => 0xF000003F
  | .unmap _ => 0xF0000007
  | .out _ => 0xF0000007
  | .inp _ => 0xF0000007
  | .loadp _ _ => 0xF000003F
  | .li _ _ => 0xFFFFFFFF

/-- The word of an opcode-table row: its low `nbits` bits are those of `w`, every other bit is 0. An instruction is one word (30_encoding.md R90). -/
def tableWord (nbits w : Nat) : Word := BitVec.ofNat 32 (w % Nat.pow 2 nbits)

/-- The instruction the decoder reads from the table's bits, none where it refuses. -/
def decodeTableWord (nbits w : Nat) : Option Instr :=
  match decode (tableWord nbits w) with
  | .ok i => some i
  | .error _ => none

end Sys2Proof
end

