-- ==== Sys2Proof/Machine/State.lean ====
section
/-! DEFINITION. The state of the machine as plain data: the block's own state (10_state.md R20 to R35), the memory manager's
(20_memory.md R51) and the two OPEN parameters of the environment (40_dispatch.md R131), with the reasons for which there is no
step. -/

namespace Sys2Proof.Machine

/-- The run status (10_state.md R29). -/
inductive Status where
  /-- Cycles execute. -/
  | running
  /-- Reached by HALT; terminal (R30). -/
  | halted
  /-- Reached by any fault; terminal (R30). -/
  | faulted
deriving DecidableEq, Repr

/-- The nine causes a cycle can raise (60_exceptions.md R222). Their codes are in Machine/Flags.lean. -/
inductive FaultCode where
  /-- 1: `pc` is at or past the length of segment 0. -/
  | fetchOutOfBounds
  /-- 2: `w[31:28]` is 14 or 15. -/
  | invalidOpcode
  /-- 3: the identifier was never issued, or is free. -/
  | segmentNotLive
  /-- 4: the offset is at or past the segment's length. -/
  | offsetOutOfBounds
  /-- 5: UNMAP of segment 0. -/
  | freeProgramSegment
  /-- 6: UNMAP of an identifier other than 0 that is not live. -/
  | freeNotLive
  /-- 7: DIV with a divisor of 0. -/
  | divideByZero
  /-- 8: OUT of a value above 255. -/
  | outputRange
  /-- 9: the allocation is refused. -/
  | allocFailed
deriving DecidableEq, Repr

/-- The fault record (10_state.md R31): written only by fault entry, all 0 at reset; a cause of 0 means no fault. -/
structure FaultRecord where
  cause : BitVec 4
  pc : Word
  word : Word
deriving DecidableEq, Repr

/-- A segment: `len` words. `cells` lists the words that are not 0, by rising offset; every other word is 0, as allocation leaves it
(20_memory.md R56; notes/assumptions/1.md). -/
structure Segment where
  len : Nat
  cells : List (Nat × Word)
deriving DecidableEq, Repr

/-- One slot of the segment table (20_memory.md R51). A free slot holds nothing (90_conflicts.md C4). -/
inductive Slot where
  | free
  | live (seg : Segment)
deriving DecidableEq, Repr

/-- The memory manager's state (20_memory.md R51): slot `id` is entry `id` of `slots`, the table size `n` is its length, and the head of
`pool` is the most recently freed identifier. -/
structure Memory where
  slots : List Slot
  pool : List Word
deriving DecidableEq, Repr

/-- One answer to an IN (10_state.md R40). -/
inductive InputItem where
  | byte (b : Byte)
  | endOfStream
deriving DecidableEq, Repr

/-- The OPEN parameter `inputSource` (D13), as far as the host has answered: `items` in order; past them every answer is
end-of-stream when `closed` (the reference model of D13), and there is no answer yet when not. DESIGN CHOICE, notes/assumptions/3.md. -/
structure InputSource where
  items : List InputItem
  closed : Bool
deriving DecidableEq, Repr

/-- The machine's state: the block's (10_state.md R20 to R35), the memory manager's (20_memory.md R51), and the environment's two OPEN
parameters (R131), which no step writes. -/
structure State where
  /-- r0 to r7 (R20). -/
  regs : Vector Word 8
  /-- The program counter, a word index into segment 0 (R25). -/
  pc : Word
  /-- The run status (R29). -/
  status : Status
  /-- The fault record (R31). -/
  fault : FaultRecord
  /-- The retired-instruction counter (R32). -/
  icount : BitVec 64
  /-- The output trace, oldest byte first (R34). -/
  output : List Byte
  /-- How many input items have been consumed (R35). -/
  inputPos : Nat
  /-- The segment table and the reuse pool (20_memory.md R51). -/
  mem : Memory
  /-- OPEN parameter `inputSource` (D13; notes/assumptions/3.md). -/
  input : InputSource
  /-- OPEN parameter `allocOracle` (D10): the sizes for which it answers false (notes/assumptions/2.md). -/
  refusedSizes : List Word
deriving DecidableEq, Repr

/-- Why there is no step. None of these is a fault of the spec (those are next states in status Faulted): each says that the spec's
machine makes no transition, so nothing changes. -/
inductive Fault where
  /-- Raised by `step` in status Halted: there is no step (10_state.md R30, 40_dispatch.md R121). Safe: no behaviour is added or lost. -/
  | halted
  /-- Raised by `step` in status Faulted: there is no step (10_state.md R30, 40_dispatch.md R121). Safe: no behaviour is added or lost. -/
  | faulted
  /-- Raised by IN while the host has not answered: the cycle holds and changes no state (40_dispatch.md R121, R130). Safe: the same state
  steps once the host has supplied the answer. -/
  | inputHold
deriving DecidableEq, Repr

/-- Why an instruction has no meaning in the model. -/
inductive Refusal where
  /-- Raised by `exec` for an instruction the model does not have. Safe. No arm of `exec` answers with it. -/
  | notModelled (mnemonic : String)
deriving DecidableEq, Repr

/-- The state after reset (70_reset_and_hazards.md R260, R72) with the empty program image, which the spec accepts (R264): a program is
loaded from outside (notes/assumptions/5.md). The two environment parameters are DESIGN CHOICES (notes/assumptions/2.md, 3.md). -/
def State.reset : State where
  regs := #v[0, 0, 0, 0, 0, 0, 0, 0]
  pc := 0
  status := .running
  fault := { cause := 0, pc := 0, word := 0 }
  icount := 0
  output := []
  inputPos := 0
  mem := { slots := [.live { len := 0, cells := [] }], pool := [] }
  input := { items := [], closed := true }
  refusedSizes := []

end Sys2Proof.Machine
end

