-- ==== Sys2Proof/Machine/Flags.lean ====
section
/-! DEFINITION. The ISA has no flags and no condition codes (10_state.md R33), so no flag is computed anywhere. What stands here is the
only status the block shows: the codes of the run status (R41) and of the fault causes (60_exceptions.md R222). -/

namespace Sys2Proof.Machine

/-- `status` on the host status port: 0 Running, 1 Halted, 2 Faulted (10_state.md R41). -/
def Status.code : Status → BitVec 2
  | .running => 0
  | .halted => 1
  | .faulted => 2

/-- The cause code of a fault (60_exceptions.md R222). -/
def FaultCode.code : FaultCode → BitVec 4
  | .fetchOutOfBounds => 1
  | .invalidOpcode => 2
  | .segmentNotLive => 3
  | .offsetOutOfBounds => 4
  | .freeProgramSegment => 5
  | .freeNotLive => 6
  | .divideByZero => 7
  | .outputRange => 8
  | .allocFailed => 9

/-- The four fault classes (60_exceptions.md R221). -/
inductive FaultClass where
  /-- (a): opcode bits 14 or 15. -/
  | decode
  /-- (b): a segment that does not exist, an offset out of bounds, an illegal deallocation, a fetch out of bounds, a failed allocation. -/
  | memory
  /-- (c): division by zero. -/
  | arithmetic
  /-- (d): an output value of more than one byte. -/
  | io
deriving DecidableEq, Repr

/-- The class of a fault (60_exceptions.md R221, R222). -/
def FaultCode.faultClass : FaultCode → FaultClass
  | .fetchOutOfBounds => .memory
  | .invalidOpcode => .decode
  | .segmentNotLive => .memory
  | .offsetOutOfBounds => .memory
  | .freeProgramSegment => .memory
  | .freeNotLive => .memory
  | .divideByZero => .arithmetic
  | .outputRange => .io
  | .allocFailed => .memory

end Sys2Proof.Machine
end

