-- ==== Sys2Proof/Machine/Memory.lean ====
section
/-! DEFINITION. The segmented memory manager: its requests (20_memory.md R53 to R60) as functions of its state, and its invariants (R51).
A request answers either a fault code, and then changes nothing, or its result. -/

namespace Sys2Proof.Machine

/-- The word at offset `off` of a list of cells: 0 where none is listed (20_memory.md R56; notes/assumptions/1.md). -/
def cellAt : List (Nat × Word) → Nat → Word
  | [], _ => 0#32
  | (k, v) :: rest, off => if k = off then v else cellAt rest off

/-- The cells with `v` at `off`, in the canonical form: offsets rise, and no cell holds 0. -/
def setCell : List (Nat × Word) → Nat → Word → List (Nat × Word)
  | [], off, v => if v = 0#32 then [] else [(off, v)]
  | (k, w) :: rest, off, v =>
    if off < k then (if v = 0#32 then (k, w) :: rest else (off, v) :: (k, w) :: rest)
    else if off = k then (if v = 0#32 then rest else (off, v) :: rest)
    else (k, w) :: setCell rest off v

/-- The cells of a list of words whose first one is at offset `at0`. -/
def cellsFrom (at0 : Nat) : List Word → List (Nat × Word)
  | [] => []
  | w :: ws => if w = 0#32 then cellsFrom (at0 + 1) ws else (at0, w) :: cellsFrom (at0 + 1) ws

/-- `n` words, each 0 (20_memory.md R56). -/
def Segment.zeros (n : Nat) : Segment := { len := n, cells := [] }

/-- The segment that holds exactly these words, in order (20_memory.md R72). -/
def Segment.ofWords (ws : List Word) : Segment := { len := ws.length, cells := cellsFrom 0 ws }

/-- The word at an offset, none when the offset is not below the length (20_memory.md R53). -/
def Segment.read? (g : Segment) (off : Nat) : Option Word :=
  if off < g.len then some (cellAt g.cells off) else none

/-- The segment with one word changed; its length stays (20_memory.md R54). -/
def Segment.write (g : Segment) (off : Nat) (v : Word) : Segment :=
  { g with cells := setCell g.cells off v }

/-- `slot[id]` when it is live, none when `id` was never issued or is free (20_memory.md R52). -/
def Memory.segment? (m : Memory) (id : Word) : Option Segment :=
  match m.slots[id.toNat]? with
  | some (.live g) => some g
  | some .free => none
  | none => none

/-- Whether an identifier is live (20_memory.md R52). -/
def Memory.isLive (m : Memory) (id : Word) : Bool := (m.segment? id).isSome

/-- The table size `n`: how many identifiers have been issued (20_memory.md R51). -/
def Memory.tableSize (m : Memory) : Nat := m.slots.length

/-- The table with slot `id` replaced. -/
def Memory.setSlot (m : Memory) (id : Word) (sl : Slot) : Memory :=
  { m with slots := m.slots.set id.toNat sl }

/-- `MemRead((id, off), 1)`: existence first, then bounds (20_memory.md R53, 60_exceptions.md R224). -/
def Memory.memRead (m : Memory) (id off : Word) : Except FaultCode Word :=
  match m.segment? id with
  | none => .error .segmentNotLive
  | some g =>
    match g.read? off.toNat with
    | none => .error .offsetOutOfBounds
    | some w => .ok w

/-- `MemWrite((id, off), 1, v)`: existence first, then bounds (20_memory.md R54, 60_exceptions.md R224). -/
def Memory.memWrite (m : Memory) (id off v : Word) : Except FaultCode Memory :=
  match m.segment? id with
  | none => .error .segmentNotLive
  | some g =>
    if off.toNat < g.len then .ok (m.setSlot id (.live (g.write off.toNat v)))
    else .error .offsetOutOfBounds

/-- `Fetch(pc)`: the word at `pc` of segment 0 (20_memory.md R55). Slot 0 is always live (R51); in a state that breaks this the fetch
faults (notes/assumptions/7.md). -/
def Memory.fetch (m : Memory) (pc : Word) : Except FaultCode Word :=
  match m.segment? 0#32 with
  | none => .error .fetchOutOfBounds
  | some g =>
    match g.read? pc.toNat with
    | none => .error .fetchOutOfBounds
    | some w => .ok w

/-- `SegAlloc(size)` with the oracle's answer `granted` (20_memory.md R56, R58): the most recently freed identifier, else the next one; the
new segment is all zeros. -/
def Memory.segAlloc (m : Memory) (granted : Bool) (size : Word) : Except FaultCode (Word × Memory) :=
  if granted then
    match m.pool with
    | id :: rest => .ok (id, { m with pool := rest }.setSlot id (.live (.zeros size.toNat)))
    | [] =>
      if m.tableSize < Config.maxSlots then
        .ok (BitVec.ofNat 32 m.tableSize, { m with slots := m.slots ++ [.live (.zeros size.toNat)] })
      else .error .allocFailed
  else .error .allocFailed

/-- `SegFree(id)`: segment 0 cannot be freed, then `id` must be live (20_memory.md R59). -/
def Memory.segFree (m : Memory) (id : Word) : Except FaultCode Memory :=
  if id = 0#32 then .error .freeProgramSegment
  else
    match m.segment? id with
    | none => .error .freeNotLive
    | some _ => .ok { m.setSlot id .free with pool := id :: m.pool }

/-- `SegLoadProgram(id)`: segment 0 becomes a copy of segment `id` (20_memory.md R60). -/
def Memory.segLoadProgram (m : Memory) (id : Word) : Except FaultCode Memory :=
  match m.segment? id with
  | none => .error .segmentNotLive
  | some g => .ok (m.setSlot 0#32 (.live g))

/-- Segment 0 with `w` at offset `pc`, lengthened with zeros where it is too short to hold it: what loading a program word from outside
does (notes/assumptions/5.md). No step does this. -/
def Memory.placeWord (m : Memory) (pc w : Word) : Memory :=
  match m.slots with
  | [] => { m with slots := [.live ((Segment.zeros (pc.toNat + 1)).write pc.toNat w)] }
  | .free :: rest => { m with slots := .live ((Segment.zeros (pc.toNat + 1)).write pc.toNat w) :: rest }
  | .live g :: rest =>
    { m with slots := .live ({ g with len := max g.len (pc.toNat + 1) }.write pc.toNat w) :: rest }

/-- The canonical form of one segment, and the bound on its length (20_memory.md R51; notes/assumptions/1.md): offsets strictly rise, each
is below the length, and no cell holds 0. -/
def Segment.wf (g : Segment) : Bool :=
  decide (g.len ≤ Config.maxSegmentLen) && decide (g.cells.Pairwise (fun a b => a.1 < b.1)) &&
    g.cells.all (fun c => decide (c.1 < g.len) && decide (c.2 ≠ 0#32))

/-- A free slot holds nothing; a live one holds a segment in canonical form. -/
def Slot.wf : Slot → Bool
  | .free => true
  | .live g => g.wf

/-- The invariants of the memory manager (20_memory.md R51), with the canonical form of every segment: slot 0 is live, `n ≤ 2^32`, and the
pool holds each free identifier exactly once and nothing else. `Memory.wf_iff` says it as a proposition. -/
def Memory.wf (m : Memory) : Bool :=
  m.isLive 0#32 && decide (m.tableSize ≤ Config.maxSlots) && m.slots.all Slot.wf && decide m.pool.Nodup &&
    m.pool.all (fun id => decide (m.slots[id.toNat]? = some .free)) &&
    (List.range m.tableSize).all (fun k => decide (m.slots[k]? = some .free → BitVec.ofNat 32 k ∈ m.pool))

end Sys2Proof.Machine
end

