-- ==== Sys2Proof/Machine/Operands.lean ====
section
/-! DEFINITION. The operand forms: a register index (the register file's indexed get and set, 10_state.md R22) and LI's immediate, which
the decoder has already widened (30_encoding.md R95). The tables of R23 and R24 say which registers an instruction reads and writes. -/

namespace Sys2Proof.Machine

/-- `x[i]` (00_scope.md R9, 10_state.md R22). -/
def State.reg (s : State) (i : Reg) : Word := s.regs[i.toNat]'i.isLt

/-- `x[i] <- v` (00_scope.md R9, 10_state.md R22). No register is hardwired (R20). -/
def State.setReg (s : State) (i : Reg) (v : Word) : State :=
  { s with regs := s.regs.set i.toNat v i.isLt }

/-- The registers an instruction reads (10_state.md R24). -/
def readsOf : Instr → List Reg
  | .cmov _ rb rc => [rb, rc]
  | .load _ rb rc => [rb, rc]
  | .store ra rb rc => [ra, rb, rc]
  | .add _ rb rc => [rb, rc]
  | .mul _ rb rc => [rb, rc]
  | .div _ rb rc => [rb, rc]
  | .nand _ rb rc => [rb, rc]
  | .halt => []
  | .map _ rc => [rc]
  | .unmap rc => [rc]
  | .out rc => [rc]
  | .inp _ => []
  | .loadp rb rc => [rb, rc]
  | .li _ _ => []

/-- The register an instruction may write, at most one (10_state.md R23, 40_dispatch.md R127). -/
def writesOf : Instr → Option Reg
  | .cmov ra _ _ => some ra
  | .load ra _ _ => some ra
  | .store _ _ _ => none
  | .add ra _ _ => some ra
  | .mul ra _ _ => some ra
  | .div ra _ _ => some ra
  | .nand ra _ _ => some ra
  | .halt => none
  | .map rb _ => some rb
  | .unmap _ => none
  | .out _ => none
  | .inp rc => some rc
  | .loadp _ _ => none
  | .li ra _ => some ra

/-- The causes an instruction itself can raise (60_exceptions.md R222, column "raised by"); fetch and decode can fault in every cycle. -/
def causesOf : Instr → List FaultCode
  | .cmov _ _ _ => []
  | .load _ _ _ => [.segmentNotLive, .offsetOutOfBounds]
  | .store _ _ _ => [.segmentNotLive, .offsetOutOfBounds]
  | .add _ _ _ => []
  | .mul _ _ _ => []
  | .div _ _ _ => [.divideByZero]
  | .nand _ _ _ => []
  | .halt => []
  | .map _ _ => [.allocFailed]
  | .unmap _ => [.freeProgramSegment, .freeNotLive]
  | .out _ => [.outputRange]
  | .inp _ => []
  | .loadp _ _ => [.segmentNotLive]
  | .li _ _ => []

end Sys2Proof.Machine
end

