-- ==== Sys2Proof/Machine/Ops.lean ====
section
/-! DEFINITION. The shared operations of a cycle: the phases around an instruction's own effect (40_dispatch.md R122 to R130), the streams
(45_io.md R190, R191), the oracle (20_memory.md R58), and taking a fault (60_exceptions.md R226). The ISA has no return from a fault
(R227), so no operation returns from one. -/

namespace Sys2Proof.Machine

/-- Phase 3, `pc <- (pc + 1) mod 2^32` (40_dispatch.md R124, 10_state.md R28). -/
def State.advance (s : State) : State := { s with pc := s.pc + 1#32 }

/-- Retire: `icount <- icount + 1` (40_dispatch.md R128, 10_state.md R32). -/
def State.retire (s : State) : State := { s with icount := s.icount + 1#64 }

/-- `pc <- target` (43_halt_and_load_program.md R171). -/
def State.setPc (s : State) (target : Word) : State := { s with pc := target }

/-- The memory manager's state after a request that did not fault. -/
def State.setMem (s : State) (m : Memory) : State := { s with mem := m }

/-- `status <- v`. -/
def State.setStatus (s : State) (v : Status) : State := { s with status := v }

/-- `OutByte(b)`: append to the output trace; it cannot fail and never holds (45_io.md R190, 10_state.md R34). -/
def State.outByte (s : State) (b : Byte) : State := { s with output := s.output ++ [b] }

/-- The answer to `InByte()`, none while the host has not answered (45_io.md R191, D13; notes/assumptions/3.md). -/
def State.inputAnswer (s : State) : Option InputItem :=
  match s.input.items[s.inputPos]? with
  | some item => some item
  | none => if s.input.closed then some .endOfStream else none

/-- `InByte()` advances the input position by one (45_io.md R191). -/
def State.consumeInput (s : State) : State := { s with inputPos := s.inputPos + 1 }

/-- The word IN writes: the byte, zero-extended, or 0xFFFFFFFF (45_io.md R191). -/
def inputWord : InputItem → Word
  | .byte b => b.setWidth 32
  | .endOfStream => 0xFFFFFFFF#32

/-- `allocOracle(size)` (20_memory.md R58, D10; notes/assumptions/2.md). -/
def State.allocOracle (s : State) (size : Word) : Bool := !s.refusedSizes.contains size

/-- `fault.word` of a fault in this cycle: the instruction word, or 0 when the fetch itself faulted (60_exceptions.md R223). Memory and `pc` are
those of the fetch wherever a fault is taken (notes/assumptions/6.md). -/
def State.cycleWord (s : State) : Word :=
  match s.mem.fetch s.pc with
  | .ok w => w
  | .error _ => 0#32

/-- `FaultEntry(code, pc_cur, w)` (60_exceptions.md R226). `s` is the state at the fetch, so its `pc` is `pc_cur` and stays; nothing but the
status and the fault record changes. -/
def State.faultEntry (s : State) (code : FaultCode) : State :=
  { s with status := .faulted, fault := { cause := code.code, pc := s.pc, word := s.cycleWord } }

/-- The outcome of a cycle whose instruction completes: it retires (40_dispatch.md R128). -/
def complete (s : State) : Host.Outcome State Fault Refusal := .next s.retire

/-- The outcome of a cycle that faults: fault entry, which is a next state (40_dispatch.md R130, 60_exceptions.md R226). -/
def raise (s : State) (code : FaultCode) : Host.Outcome State Fault Refusal := .next (s.faultEntry code)

/-- Write-back of a result as the last effect, to the one register an instruction writes (40_dispatch.md R127), after the increment of phase 3. -/
def writeBack (s : State) (r : Reg) (v : Word) : Host.Outcome State Fault Refusal := complete (s.advance.setReg r v)

end Sys2Proof.Machine
end

