-- ==== Sys2Proof/Machine/HaltLoadProgram.lean ====
section
/-! DEFINITION. The two control instructions (43_halt_and_load_program.md): HALT, LOADP. -/

namespace Sys2Proof.Machine

/-- HALT (R170): `pc` keeps its incremented value and the instruction is counted. -/
def execHalt (s : State) : Host.Outcome State Fault Refusal :=
  complete (s.advance.setStatus .halted)

/-- LOADP (R171): the target is absolute and is not checked here. -/
def execLoadp (rb rc : Reg) (s : State) : Host.Outcome State Fault Refusal :=
  match s.mem.segLoadProgram (s.reg rb) with
  | .ok m => complete ((s.advance.setMem m).setPc (s.reg rc))
  | .error code => raise s code

end Sys2Proof.Machine
end

