-- ==== Sys2Proof/Machine/InputOutput.lean ====
section
/-! DEFINITION. Output and input (45_io.md): OUT, IN. -/

namespace Sys2Proof.Machine

/-- OUT (R190): the range is checked before anything is emitted (90_conflicts.md C3). -/
def execOut (rc : Reg) (s : State) : Host.Outcome State Fault Refusal :=
  if (s.reg rc).toNat > 255 then raise s .outputRange
  else complete (s.advance.outByte ((s.reg rc).setWidth 8))

/-- IN (R191): while the host has not answered, the cycle holds and there is no step (40_dispatch.md R121; notes/assumptions/4.md). -/
def execIn (rc : Reg) (s : State) : Host.Outcome State Fault Refusal :=
  match s.inputAnswer with
  | some item => writeBack s.consumeInput rc (inputWord item)
  | none => .fault .inputHold

end Sys2Proof.Machine
end

