-- ==== Sys2Proof/Machine/LoadImmediate.lean ====
section
/-! DEFINITION. Load immediate (46_load_immediate.md): LI. -/

namespace Sys2Proof.Machine

/-- LI (R200): the immediate is already `zext_32(w[24:0])` (00_scope.md R10). -/
def execLi (ra : Reg) (imm : Word) (s : State) : Host.Outcome State Fault Refusal :=
  writeBack s ra imm

end Sys2Proof.Machine
end

