-- ==== Sys2Proof/Machine/Alu.lean ====
section
/-! DEFINITION. The ALU: the combinational unit of opcodes 0, 3, 4, 5 and 6 (40_dispatch.md R132). It has no carry, overflow or other status
output (10_state.md R33). -/

namespace Sys2Proof.Machine

/-- The select function of CMOV: `some b` when `c != 0`, and nothing otherwise (R132, 41_move_and_arith.md R150). -/
def Alu.select (b c : Word) : Option Word := if c = 0#32 then none else some b

/-- `(b + c) mod 2^32` (R132, R151). -/
def Alu.add (b c : Word) : Word := b + c

/-- `(b * c) mod 2^32`, the low half of the unsigned product (R132, R152). -/
def Alu.mul (b c : Word) : Word := b * c

/-- `floor(b / c)`, unsigned; DIVIDE_BY_ZERO when `c = 0` (R132, R153). -/
def Alu.div (b c : Word) : Except FaultCode Word :=
  if c = 0#32 then .error .divideByZero else .ok (b / c)

/-- `~(b & c)` (R132, R154). -/
def Alu.nand (b c : Word) : Word := ~~~(b &&& c)

end Sys2Proof.Machine
end

