-- ==== Sys2Proof/Machine/MoveArith.lean ====
section
/-! DEFINITION. Conditional move and arithmetic (41_move_and_arith.md): CMOV, ADD, MUL, DIV, NAND. Every operand is read from the state
before any write (40_dispatch.md R126). -/

namespace Sys2Proof.Machine

/-- CMOV (R150). -/
def execCmov (ra rb rc : Reg) (s : State) : Host.Outcome State Fault Refusal :=
  match Alu.select (s.reg rb) (s.reg rc) with
  | some b => writeBack s ra b
  | none => complete s.advance

/-- ADD (R151). -/
def execAdd (ra rb rc : Reg) (s : State) : Host.Outcome State Fault Refusal :=
  writeBack s ra (Alu.add (s.reg rb) (s.reg rc))

/-- MUL (R152). -/
def execMul (ra rb rc : Reg) (s : State) : Host.Outcome State Fault Refusal :=
  writeBack s ra (Alu.mul (s.reg rb) (s.reg rc))

/-- DIV (R153). -/
def execDiv (ra rb rc : Reg) (s : State) : Host.Outcome State Fault Refusal :=
  match Alu.div (s.reg rb) (s.reg rc) with
  | .ok q => writeBack s ra q
  | .error code => raise s code

/-- NAND (R154). -/
def execNand (ra rb rc : Reg) (s : State) : Host.Outcome State Fault Refusal :=
  writeBack s ra (Alu.nand (s.reg rb) (s.reg rc))

end Sys2Proof.Machine
end

