-- ==== Sys2Proof/Machine/SegmentAccess.lean ====
section
/-! DEFINITION. Segment load and store (42_segment_access.md): LOAD, STORE. -/

namespace Sys2Proof.Machine

/-- LOAD (R160). -/
def execLoad (ra rb rc : Reg) (s : State) : Host.Outcome State Fault Refusal :=
  match s.mem.memRead (s.reg rb) (s.reg rc) with
  | .ok w => writeBack s ra w
  | .error code => raise s code

/-- STORE (R161). -/
def execStore (ra rb rc : Reg) (s : State) : Host.Outcome State Fault Refusal :=
  match s.mem.memWrite (s.reg ra) (s.reg rb) (s.reg rc) with
  | .ok m => complete (s.advance.setMem m)
  | .error code => raise s code

end Sys2Proof.Machine
end

