-- ==== Sys2Proof/Machine/SegmentAlloc.lean ====
section
/-! DEFINITION. Map and unmap segment (44_segment_alloc.md): MAP, UNMAP. -/

namespace Sys2Proof.Machine

/-- MAP (R180): the destination is `rb`. -/
def execMap (rb rc : Reg) (s : State) : Host.Outcome State Fault Refusal :=
  match s.mem.segAlloc (s.allocOracle (s.reg rc)) (s.reg rc) with
  | .ok (id, m) => writeBack (s.setMem m) rb id
  | .error code => raise s code

/-- UNMAP (R181). -/
def execUnmap (rc : Reg) (s : State) : Host.Outcome State Fault Refusal :=
  match s.mem.segFree (s.reg rc) with
  | .ok m => complete (s.advance.setMem m)
  | .error code => raise s code

end Sys2Proof.Machine
end

