-- ==== Sys2Proof/Machine/Dispatch.lean ====
section
/-! DEFINITION. Phases 3 and 4 and retirement: one arm per operation (40_dispatch.md R124, R125, R128). The state is that of the fetch. -/

namespace Sys2Proof.Machine

def exec (i : Instr) (s : State) : Host.Outcome State Fault Refusal :=
  match i with
  | .cmov ra rb rc => Sys2Proof.Machine.execCmov ra rb rc s
  | .load ra rb rc => Sys2Proof.Machine.execLoad ra rb rc s
  | .store ra rb rc => Sys2Proof.Machine.execStore ra rb rc s
  | .add ra rb rc => Sys2Proof.Machine.execAdd ra rb rc s
  | .mul ra rb rc => Sys2Proof.Machine.execMul ra rb rc s
  | .div ra rb rc => Sys2Proof.Machine.execDiv ra rb rc s
  | .nand ra rb rc => Sys2Proof.Machine.execNand ra rb rc s
  | .halt => Sys2Proof.Machine.execHalt s
  | .map rb rc => Sys2Proof.Machine.execMap rb rc s
  | .unmap rc => Sys2Proof.Machine.execUnmap rc s
  | .out rc => Sys2Proof.Machine.execOut rc s
  | .inp rc => Sys2Proof.Machine.execIn rc s
  | .loadp rb rc => Sys2Proof.Machine.execLoadp rb rc s
  | .li ra imm => Sys2Proof.Machine.execLi ra imm s

end Sys2Proof.Machine
end

