-- ==== Sys2Proof/Machine/Cycle.lean ====
section
/-! DEFINITION. The cycle (40_dispatch.md R121 to R130): status, fetch, decode, and then the instruction. -/

namespace Sys2Proof.Machine

/-- Phases 1 and 2, then the instruction (40_dispatch.md R122, R123, R130). -/
def runCycle (s : State) : Host.Outcome State Fault Refusal :=
  match s.mem.fetch s.pc with
  | .error code => raise s code
  | .ok w =>
    match decode w with
    | .error _ => raise s .invalidOpcode
    | .ok i => exec i s

/-- The step of the block (40_dispatch.md R121, R130): only in status Running; in Halted and in Faulted there is no step (10_state.md R30). -/
def stepCycle (s : State) : Host.Outcome State Fault Refusal :=
  match s.status with
  | .running => runCycle s
  | .halted => .fault .halted
  | .faulted => .fault .faulted

/-- The state in which the next step fetches exactly this word: the run status is Running and the word stands at `pc` of segment 0
(notes/assumptions/5.md). -/
def State.placeFetchWord (s : State) (w : Word) : State :=
  (s.setStatus .running).setMem (s.mem.placeWord s.pc w)

end Sys2Proof.Machine
end

