-- ==== Sys2Proof/Machine/Step.lean ====
section
/-! DEFINITION. The step, and the state in which a given word is fetched next. -/

namespace Sys2Proof.Machine

/-- The step of the block (40_dispatch.md R130). -/
def step : State → Host.Outcome State Fault Refusal := stepCycle

/-- `s` with the table's instruction stored where `step` fetches its next one; this stands for loading a program from outside the machine
(notes/assumptions/5.md). -/
def State.withFetchWord (s : State) (nbits w : Nat) : State := s.placeFetchWord (tableWord nbits w)

end Sys2Proof.Machine
end

