-- ==== Sys2Proof/Machine/Boot.lean ====
section
/-! DEFINITION. Reset and boot (70_reset_and_hazards.md R260 to R265, 10_state.md R42, 20_memory.md R72). -/

namespace Sys2Proof.Machine

/-- One image word, big-endian: `(b0 << 24) | (b1 << 16) | (b2 << 8) | b3` (R263). -/
def imageWord (b0 b1 b2 b3 : Byte) : Word :=
  (b0.setWidth 32 <<< 24) ||| (b1.setWidth 32 <<< 16) ||| (b2.setWidth 32 <<< 8) ||| b3.setWidth 32

/-- The image's words in order (R263), none when the byte length is not a multiple of 4 (R264). -/
def imageWords : List Byte → Option (List Word)
  | [] => some []
  | b0 :: b1 :: b2 :: b3 :: rest =>
    match imageWords rest with
    | some ws => some (imageWord b0 b1 b2 b3 :: ws)
    | none => none
  | _ => none

/-- `Reset(image)` (R260), with the environment's two OPEN parameters as `State.reset` names them. -/
def State.resetWith (image : List Word) : State :=
  { State.reset with mem := { slots := [.live (.ofWords image)], pool := [] } }

/-- The reset input (10_state.md R42): the same from any status, with the environment reset at the same time. The OPEN parameters are not
state of a run and stay (notes/assumptions/12.md). -/
def State.resetInput (s : State) (image : List Word) : State :=
  { State.resetWith image with input := s.input, refusedSizes := s.refusedSizes }

/-- Boot from the image's bytes: none when the image is refused, and then the run never starts (R263, R264). -/
def State.boot (s : State) (bytes : List Byte) : Option State :=
  match imageWords bytes with
  | some ws => if ws.length ≤ Config.maxSegmentLen then some (s.resetInput ws) else none
  | none => none

end Sys2Proof.Machine
end

