-- ==== Sys2Proof/Machine/HostPort.lean ====
section
/-! DEFINITION. What the host sees and may do between steps (40_dispatch.md R120): the status port (10_state.md R41), the end of a run
(60_exceptions.md R228, R229), and supplying input (R237, 45_io.md R191). Programs see none of it (10_state.md R33). -/

namespace Sys2Proof.Machine

/-- The host status port (10_state.md R41). -/
structure StatusPort where
  status : BitVec 2
  cause : BitVec 4
  pc : Word
  word : Word
  icount : BitVec 64
deriving DecidableEq, Repr

/-- What the status port carries (10_state.md R41). -/
def State.statusPort (s : State) : StatusPort where
  status := s.status.code
  cause := s.fault.cause
  pc := s.fault.pc
  word := s.fault.word
  icount := s.icount

/-- The end of a run as the host sees it (60_exceptions.md R229). -/
inductive RunEnd where
  /-- Halted: a successful exit, which reports the executed-instruction count. -/
  | success (icount : BitVec 64)
  /-- Faulted: an abnormal exit, whose diagnostic is built from the fault record. -/
  | abnormal (record : FaultRecord)
deriving DecidableEq, Repr

/-- How the run has ended, none while it is Running (60_exceptions.md R228, R229). -/
def State.runEnd (s : State) : Option RunEnd :=
  match s.status with
  | .running => none
  | .halted => some (.success s.icount)
  | .faulted => some (.abnormal s.fault)

/-- The host answers one more IN (40_dispatch.md R120, 60_exceptions.md R237). Once the source is closed every answer is already given. -/
def State.supplyInput (s : State) (item : InputItem) : State :=
  if s.input.closed then s else { s with input := { s.input with items := s.input.items ++ [item] } }

/-- The host ends the input for good: from here on every IN answers end-of-stream, the reference model of D13. -/
def State.closeInput (s : State) : State := { s with input := { s.input with closed := true } }

end Sys2Proof.Machine
end

