-- ==== Sys2Proof/Machine/Ports.lean ====
section
/-! DEFINITION. The block's request ports as transactions (10_state.md R36 to R40): which requests a cycle issues, and what the memory
manager answers on the data port. -/

namespace Sys2Proof.Machine

/-- A request on the data port (10_state.md R38). -/
inductive DataRequest where
  | memRead (id off : Word)
  | memWrite (id off v : Word)
  | segAlloc (size : Word)
  | segFree (id : Word)
  | segLoadProgram (id : Word)
deriving DecidableEq, Repr

/-- A response on the data port (10_state.md R38). -/
inductive DataResponse where
  | value (w : Word)
  | done
  | fault (code : FaultCode)
deriving DecidableEq, Repr

/-- A request on one of the four request ports (10_state.md R36). -/
inductive Request where
  | fetch (pc : Word)
  | data (r : DataRequest)
  | outByte (b : Byte)
  | inByte
deriving DecidableEq, Repr

/-- The memory manager's answer and its state after it (10_state.md R38, 20_memory.md R53 to R60). -/
def State.serve (s : State) : DataRequest → DataResponse × Memory
  | .memRead id off =>
    match s.mem.memRead id off with
    | .ok w => (.value w, s.mem)
    | .error code => (.fault code, s.mem)
  | .memWrite id off v =>
    match s.mem.memWrite id off v with
    | .ok m => (.done, m)
    | .error code => (.fault code, s.mem)
  | .segAlloc size =>
    match s.mem.segAlloc (s.allocOracle size) size with
    | .ok (id, m) => (.value id, m)
    | .error code => (.fault code, s.mem)
  | .segFree id =>
    match s.mem.segFree id with
    | .ok m => (.done, m)
    | .error code => (.fault code, s.mem)
  | .segLoadProgram id =>
    match s.mem.segLoadProgram id with
    | .ok m => (.done, m)
    | .error code => (.fault code, s.mem)

/-- The request an instruction issues, at most one (10_state.md R36, 40_dispatch.md R125). OUT of a value above 255 issues none (45_io.md R190). -/
def requestOf (i : Instr) (s : State) : Option Request :=
  match i with
  | .cmov _ _ _ => none
  | .load _ rb rc => some (.data (.memRead (s.reg rb) (s.reg rc)))
  | .store ra rb rc => some (.data (.memWrite (s.reg ra) (s.reg rb) (s.reg rc)))
  | .add _ _ _ => none
  | .mul _ _ _ => none
  | .div _ _ _ => none
  | .nand _ _ _ => none
  | .halt => none
  | .map _ rc => some (.data (.segAlloc (s.reg rc)))
  | .unmap rc => some (.data (.segFree (s.reg rc)))
  | .out rc => if (s.reg rc).toNat > 255 then none else some (.outByte ((s.reg rc).setWidth 8))
  | .inp _ => some .inByte
  | .loadp rb _ => some (.data (.segLoadProgram (s.reg rb)))
  | .li _ _ => none

/-- The requests of the next cycle, in order: none when there is no cycle (10_state.md R30), else the fetch and then the instruction's (R36). -/
def cycleRequests (s : State) : List Request :=
  match s.status with
  | .running =>
    .fetch s.pc ::
      match s.mem.fetch s.pc with
      | .error _ => []
      | .ok w =>
        match decode w with
        | .error _ => []
        | .ok i => (requestOf i s).toList
  | .halted => []
  | .faulted => []

end Sys2Proof.Machine
end

