-- ==== Sys2Proof/Machine/Prefetch.lean ====
section
/-! DEFINITION. An implementation that overlaps the fetch of the next word with execution (70_reset_and_hazards.md R268, D28). It is not the
machine: it stands here so that a statement can say that dropping the prefetched word after a STORE to its offset in segment 0, and after
any LOADP, keeps it indistinguishable from the step (notes/assumptions/15.md). -/

namespace Sys2Proof.Machine

/-- The machine with a buffer of one prefetched word and its offset. -/
structure Prefetcher where
  machine : State
  buffer : Option (Word × Word)
deriving DecidableEq, Repr

/-- The word at `pc`, from the buffer where it holds that offset. -/
def Prefetcher.fetchWord (p : Prefetcher) : Except FaultCode Word :=
  match p.buffer with
  | some (off, w) => if off = p.machine.pc then .ok w else p.machine.mem.fetch p.machine.pc
  | none => p.machine.mem.fetch p.machine.pc

/-- Prefetch of an offset, before the instruction executes. -/
def prefetchFrom (m : Memory) (off : Word) : Option (Word × Word) :=
  match m.fetch off with
  | .ok w => some (off, w)
  | .error _ => none

/-- Whether an instruction forces the prefetched word of this offset to be fetched again (R268). -/
def dropsPrefetch (i : Instr) (s : State) (off : Word) : Bool :=
  match i with
  | .cmov _ _ _ => false
  | .load _ _ _ => false
  | .store ra rb _ => s.reg ra == 0#32 && s.reg rb == off
  | .add _ _ _ => false
  | .mul _ _ _ => false
  | .div _ _ _ => false
  | .nand _ _ _ => false
  | .halt => false
  | .map _ _ => false
  | .unmap _ => false
  | .out _ => false
  | .inp _ => false
  | .loadp _ _ => true
  | .li _ _ => false

/-- One cycle of the overlapping implementation: the word after this instruction is fetched while the instruction executes. -/
def Prefetcher.step (p : Prefetcher) : Host.Outcome Prefetcher Fault Refusal :=
  match p.machine.status with
  | .halted => .fault .halted
  | .faulted => .fault .faulted
  | .running =>
    match p.fetchWord with
    | .error code => .next { machine := p.machine.faultEntry code, buffer := none }
    | .ok w =>
      match decode w with
      | .error _ => .next { machine := p.machine.faultEntry .invalidOpcode, buffer := none }
      | .ok i =>
        match exec i p.machine with
        | .next t =>
          let next := p.machine.pc + 1#32
          .next
            { machine := t
              buffer := if dropsPrefetch i p.machine next then none else prefetchFrom p.machine.mem next }
        | .fault r => .fault r
        | .refused r => .refused r

end Sys2Proof.Machine
end

