-- ==== Sys2Proof/Safety.lean ====
section
/-! DEFINITION. The terms claims are written in: what a run is and when it is safe, the invariant every step keeps (20_memory.md R51,
10_state.md R29 to R35), and what an instruction leaves unchanged. -/

namespace Sys2Proof.Machine

/-- The states a run from `s` goes through. -/
inductive Reaches (s : State) : State → Prop where
  | refl : Reaches s s
  | tail {t u : State} : Reaches s t → step t = .next u → Reaches s u

/-- A run is safe when no fault is ever taken (60_exceptions.md R228: it halts, or it never ends). -/
def RunsSafely (s : State) : Prop := ∀ t, Reaches s t → t.status ≠ .faulted

/-- The next cycle is an IN whose request has no answer yet, so that it holds (40_dispatch.md R121). -/
def Holds (s : State) : Prop :=
  ∃ w rc, s.mem.fetch s.pc = .ok w ∧ decode w = .ok (.inp rc) ∧ s.inputAnswer = none

/-- The fault record agrees with the status (10_state.md R29, R31, R41; 60_exceptions.md R222): a cause of 1 to 9 exactly when Faulted, and a
record of zeros otherwise. -/
def State.recordWf (s : State) : Bool :=
  match s.status with
  | .faulted => decide (1 ≤ s.fault.cause.toNat) && decide (s.fault.cause.toNat ≤ 9)
  | .running => decide (s.fault = { cause := 0, pc := 0, word := 0 })
  | .halted => decide (s.fault = { cause := 0, pc := 0, word := 0 })

/-- Every item consumed had been answered (10_state.md R35, 45_io.md R191). -/
def State.inputWf (s : State) : Bool := s.input.closed || decide (s.inputPos ≤ s.input.items.length)

/-- The invariant of the machine: the memory manager's invariants and canonical form (20_memory.md R51), the fault record's, and the input's. -/
def State.inv (s : State) : Bool := s.mem.wf && s.recordWf && s.inputWf

/-- No register changes. -/
def SameRegs (s t : State) : Prop := ∀ r, t.reg r = s.reg r

/-- No register but `d` changes. -/
def SameRegsBut (d : Reg) (s t : State) : Prop := ∀ r, r ≠ d → t.reg r = s.reg r

/-- The segment table and the reuse pool are as before, so every address reads as before. -/
def SameMemory (s t : State) : Prop :=
  t.mem = s.mem ∧ ∀ id off, t.mem.memRead id off = s.mem.memRead id off

/-- Nothing is emitted and no input is consumed. -/
def SameStreams (s t : State) : Prop := t.output = s.output ∧ t.inputPos = s.inputPos

/-- The environment's OPEN parameters are as before (40_dispatch.md R131). -/
def SameEnvironment (s t : State) : Prop := t.input = s.input ∧ t.refusedSizes = s.refusedSizes

/-- The run status and the fault record are as before. -/
def SameStatus (s t : State) : Prop := t.status = s.status ∧ t.fault = s.fault

/-- The instruction retired: it is counted, modulo 2^64 (10_state.md R32, 40_dispatch.md R128; notes/assumptions/11.md for the wrap). -/
def Counted (s t : State) : Prop := t.icount.toNat = (s.icount.toNat + 1) % 2 ^ 64

/-- What every instruction that completes does besides its own effect: it is counted, and the run status, the fault record and the
environment's parameters stay (40_dispatch.md R128). -/
def Retires (s t : State) : Prop := Counted s t ∧ SameStatus s t ∧ SameEnvironment s t

/-- The next instruction is the next one in sequence, modulo 2^32 (10_state.md R27, R28). -/
def NextInSequence (s t : State) : Prop := t.pc.toNat = (s.pc.toNat + 1) % 2 ^ 32

/-- The fault `code` was taken in the cycle that began in `s` (60_exceptions.md R223, R226): the status and the record are written, `pc` is that
of the fetch, and nothing else changes. -/
def FaultTaken (code : FaultCode) (s t : State) : Prop :=
  t.status = .faulted ∧ t.fault.cause = code.code ∧ t.fault.pc = s.pc ∧
    (∀ w, s.mem.fetch s.pc = .ok w → t.fault.word = w) ∧
    (∀ c, s.mem.fetch s.pc = .error c → t.fault.word = 0) ∧
    t.pc = s.pc ∧ SameRegs s t ∧ SameMemory s t ∧ SameStreams s t ∧ t.icount = s.icount ∧ SameEnvironment s t

/-- Between `s` and `t` the identifier `id`, not 0 and not live before, was given to a new segment of `size` words that are all 0, and every
other segment reads as before (20_memory.md R56, R62). -/
def NewSegment (id size : Word) (s t : State) : Prop :=
  id ≠ 0 ∧ s.mem.isLive id = false ∧ t.mem.isLive id = true ∧
    (∀ off, off.toNat < size.toNat → t.mem.memRead id off = .ok 0) ∧
    (∀ off, size.toNat ≤ off.toNat → t.mem.memRead id off = .error .offsetOutOfBounds) ∧
    ∀ id', id' ≠ id → ∀ off, t.mem.memRead id' off = s.mem.memRead id' off

end Sys2Proof.Machine
end

