-- ==== Sys2Proof/Certificates/Slice0/Obligations.lean ====
section
/-! DEFINITION. The statements for the provers. Each docstring names the rules of spec/ it formalises. -/

open Sys2Proof Sys2Proof.Machine

/-! Encoding and decoding -/

/-- 30_encoding.md R98, R100: decoding the canonical word of a well-formed instruction gives the instruction, with every operand at every
value its field admits. -/
def Obligations.DecodeEncodeRoundTrip : Prop :=
  ∀ i : Instr, i.wellFormed = true → decode (encode i) = .ok i

/-- 30_encoding.md R100: the two encoding functions as sums of their shifted fields. -/
def Obligations.EncodingFunctionsPlaceTheirFields : Prop :=
  (∀ (op : BitVec 4) (a b c : Reg),
    (encRrr op a b c).toNat = op.toNat * 2 ^ 28 + a.toNat * 2 ^ 6 + b.toNat * 2 ^ 3 + c.toNat) ∧
  ∀ (a : Reg) (v : Word), v.toNat ≤ 0x01FFFFFF →
    (encRi a v).toNat = 13 * 2 ^ 28 + a.toNat * 2 ^ 25 + v.toNat

/-- 30_encoding.md R91, R92, R93, R94, R98: the decoder by opcode, with the fields `a`, `b`, `c` of format RRR and `d`, `v` of format RI given
as arithmetic on the word. -/
def Obligations.DecodeReadsItsFields : Prop :=
  ∀ (w : Word) (a b c d : Reg) (v : Word),
    a.toNat = w.toNat / 2 ^ 6 % 8 → b.toNat = w.toNat / 2 ^ 3 % 8 → c.toNat = w.toNat % 8 →
    d.toNat = w.toNat / 2 ^ 25 % 8 → v.toNat = w.toNat % 2 ^ 25 →
    (w.toNat / 2 ^ 28 = 0 → decode w = .ok (.cmov a b c)) ∧
    (w.toNat / 2 ^ 28 = 1 → decode w = .ok (.load a b c)) ∧
    (w.toNat / 2 ^ 28 = 2 → decode w = .ok (.store a b c)) ∧
    (w.toNat / 2 ^ 28 = 3 → decode w = .ok (.add a b c)) ∧
    (w.toNat / 2 ^ 28 = 4 → decode w = .ok (.mul a b c)) ∧
    (w.toNat / 2 ^ 28 = 5 → decode w = .ok (.div a b c)) ∧
    (w.toNat / 2 ^ 28 = 6 → decode w = .ok (.nand a b c)) ∧
    (w.toNat / 2 ^ 28 = 7 → decode w = .ok .halt) ∧
    (w.toNat / 2 ^ 28 = 8 → decode w = .ok (.map b c)) ∧
    (w.toNat / 2 ^ 28 = 9 → decode w = .ok (.unmap c)) ∧
    (w.toNat / 2 ^ 28 = 10 → decode w = .ok (.out c)) ∧
    (w.toNat / 2 ^ 28 = 11 → decode w = .ok (.inp c)) ∧
    (w.toNat / 2 ^ 28 = 12 → decode w = .ok (.loadp b c)) ∧
    (w.toNat / 2 ^ 28 = 13 → decode w = .ok (.li d v)) ∧
    (14 ≤ w.toNat / 2 ^ 28 → ∃ e, decode w = .error e)

/-- 30_encoding.md R96: a word is invalid exactly when its opcode is 14 or 15, and then the block raises INVALID_OPCODE; in format RRR the bits
[27:9] are ignored. -/
def Obligations.InvalidExactlyOpcodes14And15 : Prop :=
  (∀ w : Word, (∃ e, decode w = .error e) ↔ (w.toNat / 2 ^ 28 = 14 ∨ w.toNat / 2 ^ 28 = 15)) ∧
  (∀ (s : State) (w : Word), s.status = .running → s.mem.fetch s.pc = .ok w →
    (w.toNat / 2 ^ 28 = 14 ∨ w.toNat / 2 ^ 28 = 15) →
    ∃ t, step s = .next t ∧ FaultTaken .invalidOpcode s t) ∧
  ∀ w w' : Word, w.toNat / 2 ^ 28 = w'.toNat / 2 ^ 28 → w.toNat / 2 ^ 28 ≠ 13 → w.toNat / 2 ^ 28 ≤ 13 →
    w.toNat % 2 ^ 9 = w'.toNat % 2 ^ 9 → decode w = decode w'

/-- 30_encoding.md R97: HALT ignores all three fields, MAP and LOADP ignore `ra`, UNMAP, OUT and IN ignore `ra` and `rb`. -/
def Obligations.UnusedFieldsAreIgnored : Prop :=
  ∀ w w' : Word, w.toNat / 2 ^ 28 = w'.toNat / 2 ^ 28 →
    (w.toNat / 2 ^ 28 = 7 → decode w = decode w') ∧
    (w.toNat / 2 ^ 28 = 8 ∨ w.toNat / 2 ^ 28 = 12 → w.toNat % 2 ^ 6 = w'.toNat % 2 ^ 6 → decode w = decode w') ∧
    (w.toNat / 2 ^ 28 = 9 ∨ w.toNat / 2 ^ 28 = 10 ∨ w.toNat / 2 ^ 28 = 11 →
      w.toNat % 2 ^ 3 = w'.toNat % 2 ^ 3 → decode w = decode w')

/-- 30_encoding.md R97, R100: what is decoded is well formed, and encoding it again keeps the bits the instruction uses and writes every other
bit as 0. -/
def Obligations.EncodeKeepsExactlyTheUsedBits : Prop :=
  ∀ (w : Word) (i : Instr), decode w = .ok i → i.wellFormed = true ∧ encode i = w &&& usedBits i

/-- 30_encoding.md R99: the decoder's output wires, and that the instruction of R98 is the one they describe; nothing is said of the outputs
while `valid = 0`, which are don't-cares. -/
def Obligations.DecoderOutputsDescribeTheInstruction : Prop :=
  ∀ w : Word,
    ((decoderOutputs w).valid = true ↔ w.toNat / 2 ^ 28 ≤ 13) ∧
    ((decoderOutputs w).valid = true →
      (decoderOutputs w).op.toNat = w.toNat / 2 ^ 28 ∧
      (decoderOutputs w).ra.toNat = (if w.toNat / 2 ^ 28 = 13 then w.toNat / 2 ^ 25 % 8 else w.toNat / 2 ^ 6 % 8) ∧
      (decoderOutputs w).rb.toNat = w.toNat / 2 ^ 3 % 8 ∧
      (decoderOutputs w).rc.toNat = w.toNat % 8 ∧
      (decoderOutputs w).imm.toNat = w.toNat % 2 ^ 25) ∧
    ∀ i, decode w = .ok i ↔ instrOfOutputs (decoderOutputs w) = some i

/-- 95_test_vectors.md section 2.1: a few words of the spec and what each stands for. -/
def Obligations.SpecWordsDecode : Prop :=
  decode 0x3FFFFE53 = .ok (.add 1 2 3) ∧ decode 0x10000153 = .ok (.load 5 2 3) ∧
  decode 0x2000009C = .ok (.store 2 3 4) ∧ decode 0x7FFFFFFF = .ok .halt ∧
  decode 0x80000011 = .ok (.map 2 1) ∧ decode 0xC0000006 = .ok (.loadp 0 6) ∧
  decode 0xD00001C0 = .ok (.li 0 0x1C0) ∧ decode 0xD1FFFFFF = .ok (.li 0 0x01FFFFFF)

/-! The cycle -/

/-- 40_dispatch.md R125, R130: in status Running, when the word at `pc` of segment 0 decodes to an instruction, the step is exactly that
instruction's; `exec` starts in the state of the fetch and does the increment and the retirement itself, so the step adds nothing. -/
def Obligations.StepRunsTheDecodedInstruction : Prop :=
  ∀ (s : State) (w : Word) (i : Instr), s.status = .running → s.mem.fetch s.pc = .ok w → decode w = .ok i →
    step s = exec i s

/-- 20_memory.md R55, 40_dispatch.md R122: when `pc` is at or past the length of segment 0, the cycle faults with FETCH_OUT_OF_BOUNDS, records
that `pc` and a word of 0; and `fetch` otherwise answers the word there. -/
def Obligations.FetchOutOfBoundsFaults : Prop :=
  ∀ (s : State) (g : Segment), s.mem.segment? 0 = some g →
    (s.status = .running → g.len ≤ s.pc.toNat →
      ∃ t, step s = .next t ∧ FaultTaken .fetchOutOfBounds s t ∧ t.fault.pc = s.pc ∧ t.fault.word = 0) ∧
    (s.pc.toNat < g.len → ∃ w, g.read? s.pc.toNat = some w ∧ s.mem.fetch s.pc = .ok w)

/-- 40_dispatch.md R123: when decoding fails, the cycle ends with fault entry, cause INVALID_OPCODE, with `pc` not incremented and the fetched
word recorded. -/
def Obligations.InvalidOpcodeFaults : Prop :=
  ∀ (s : State) (w : Word) (e : DecodeError), s.status = .running → s.mem.fetch s.pc = .ok w → decode w = .error e →
    ∃ t, step s = .next t ∧ FaultTaken .invalidOpcode s t ∧ t.fault.cause = 2 ∧ t.fault.pc = s.pc ∧ t.fault.word = w ∧
      t.pc = s.pc

/-- 10_state.md R28, 20_memory.md R51, R55: under the memory manager's invariants, a cycle that began at `pc = 0xFFFFFFFF` faulted, so the
wrap of the increment is never seen. -/
def Obligations.PcWrapIsNeverSeen : Prop :=
  ∀ s t : State, s.mem.wf = true → step s = .next t → s.pc = 0xFFFFFFFF → FaultTaken .fetchOutOfBounds s t

/-- 10_state.md R30: in Halted and in Faulted there is no step and no request, and the reset input leaves either. -/
def Obligations.HaltedAndFaultedAreTerminal : Prop :=
  ∀ s : State, s.status ≠ .running →
    (∀ t, step s ≠ .next t) ∧ cycleRequests s = [] ∧ ∀ image, (s.resetInput image).status = .running

/-- 40_dispatch.md R121: there is a step exactly when the status is Running and the cycle is not an IN without an answer; that IN is the only
cycle that holds. That the three cases without a step answer with the names of `Fault`, and never with a refusal, is the model's own
convention (notes/assumptions/4.md). -/
def Obligations.StepExactlyWhenRunningAndNotHolding : Prop :=
  ∀ s : State,
    ((∃ t, step s = .next t) ↔ (s.status = .running ∧ ¬ Holds s)) ∧
    (step s = .fault .inputHold ↔ (s.status = .running ∧ Holds s)) ∧
    (step s = .fault .halted ↔ s.status = .halted) ∧ (step s = .fault .faulted ↔ s.status = .faulted) ∧
    ∀ r, step s ≠ .refused r

/-- 60_exceptions.md R237, 45_io.md R191: a held IN completes once the host has supplied the answer it waits for, whether a byte or the end of
the stream. The premise `s.inv` is the invariant of EveryStepKeepsTheInvariant; the form of the host's answers is the model's
(notes/assumptions/3.md). -/
def Obligations.AnswerEndsTheWait : Prop :=
  ∀ (s : State) (w : Word) (rc : Reg), step s = .fault .inputHold → s.mem.fetch s.pc = .ok w → decode w = .ok (.inp rc) →
    s.inv = true →
    (∀ b, ∃ t, step (s.supplyInput (.byte b)) = .next t ∧ (t.reg rc).toNat = b.toNat ∧ SameRegsBut rc s t) ∧
    (∃ t, step (s.supplyInput .endOfStream) = .next t ∧ t.reg rc = 0xFFFFFFFF ∧ SameRegsBut rc s t) ∧
    ∃ t, step s.closeInput = .next t ∧ t.reg rc = 0xFFFFFFFF ∧ SameRegsBut rc s t

/-! The instructions: encoding, result, faults and frame -/

/-- 41_move_and_arith.md R150. -/
def Obligations.CmovResult : Prop :=
  ∀ (ra rb rc : Reg) (s : State),
    (encode (.cmov ra rb rc)).toNat = 0 * 2 ^ 28 + ra.toNat * 2 ^ 6 + rb.toNat * 2 ^ 3 + rc.toNat ∧
    ∃ t, exec (.cmov ra rb rc) s = .next t ∧
      t.reg ra = (if s.reg rc = 0 then s.reg ra else s.reg rb) ∧ SameRegsBut ra s t ∧
      NextInSequence s t ∧ Retires s t ∧ SameMemory s t ∧ SameStreams s t

/-- 41_move_and_arith.md R151. -/
def Obligations.AddResult : Prop :=
  ∀ (ra rb rc : Reg) (s : State),
    (encode (.add ra rb rc)).toNat = 3 * 2 ^ 28 + ra.toNat * 2 ^ 6 + rb.toNat * 2 ^ 3 + rc.toNat ∧
    ∃ t, exec (.add ra rb rc) s = .next t ∧
      (t.reg ra).toNat = ((s.reg rb).toNat + (s.reg rc).toNat) % 2 ^ 32 ∧ SameRegsBut ra s t ∧
      NextInSequence s t ∧ Retires s t ∧ SameMemory s t ∧ SameStreams s t

/-- 41_move_and_arith.md R152. -/
def Obligations.MulResult : Prop :=
  ∀ (ra rb rc : Reg) (s : State),
    (encode (.mul ra rb rc)).toNat = 4 * 2 ^ 28 + ra.toNat * 2 ^ 6 + rb.toNat * 2 ^ 3 + rc.toNat ∧
    ∃ t, exec (.mul ra rb rc) s = .next t ∧
      (t.reg ra).toNat = (s.reg rb).toNat * (s.reg rc).toNat % 2 ^ 32 ∧ SameRegsBut ra s t ∧
      NextInSequence s t ∧ Retires s t ∧ SameMemory s t ∧ SameStreams s t

/-- 41_move_and_arith.md R153: the quotient when the divisor is not 0, and DIVIDE_BY_ZERO when it is. -/
def Obligations.DivResult : Prop :=
  ∀ (ra rb rc : Reg) (s : State),
    (encode (.div ra rb rc)).toNat = 5 * 2 ^ 28 + ra.toNat * 2 ^ 6 + rb.toNat * 2 ^ 3 + rc.toNat ∧
    (s.reg rc ≠ 0 → ∃ t, exec (.div ra rb rc) s = .next t ∧
      (t.reg ra).toNat = (s.reg rb).toNat / (s.reg rc).toNat ∧ SameRegsBut ra s t ∧
      NextInSequence s t ∧ Retires s t ∧ SameMemory s t ∧ SameStreams s t) ∧
    (s.reg rc = 0 → ∃ t, exec (.div ra rb rc) s = .next t ∧ FaultTaken .divideByZero s t)

/-- 41_move_and_arith.md R154, bit by bit. -/
def Obligations.NandResult : Prop :=
  ∀ (ra rb rc : Reg) (s : State),
    (encode (.nand ra rb rc)).toNat = 6 * 2 ^ 28 + ra.toNat * 2 ^ 6 + rb.toNat * 2 ^ 3 + rc.toNat ∧
    ∃ t, exec (.nand ra rb rc) s = .next t ∧
      (∀ k < 32, (t.reg ra).getLsbD k = !((s.reg rb).getLsbD k && (s.reg rc).getLsbD k)) ∧ SameRegsBut ra s t ∧
      NextInSequence s t ∧ Retires s t ∧ SameMemory s t ∧ SameStreams s t

/-- 42_segment_access.md R160: existence is checked first, then bounds; then the word is loaded. -/
def Obligations.LoadResult : Prop :=
  ∀ (ra rb rc : Reg) (s : State),
    (encode (.load ra rb rc)).toNat = 1 * 2 ^ 28 + ra.toNat * 2 ^ 6 + rb.toNat * 2 ^ 3 + rc.toNat ∧
    (s.mem.segment? (s.reg rb) = none → ∃ t, exec (.load ra rb rc) s = .next t ∧ FaultTaken .segmentNotLive s t) ∧
    (∀ g, s.mem.segment? (s.reg rb) = some g → g.len ≤ (s.reg rc).toNat →
      ∃ t, exec (.load ra rb rc) s = .next t ∧ FaultTaken .offsetOutOfBounds s t) ∧
    (∀ g, s.mem.segment? (s.reg rb) = some g → (s.reg rc).toNat < g.len →
      ∃ t, exec (.load ra rb rc) s = .next t ∧ g.read? (s.reg rc).toNat = some (t.reg ra) ∧ SameRegsBut ra s t ∧
        NextInSequence s t ∧ Retires s t ∧ SameMemory s t ∧ SameStreams s t)

/-- 42_segment_access.md R161: existence is checked first, then bounds; then the word at offset `x[rb]` of segment `x[ra]` is stored, no other
word changes, and no segment changes its length. -/
def Obligations.StoreResult : Prop :=
  ∀ (ra rb rc : Reg) (s : State), s.mem.wf = true →
    (encode (.store ra rb rc)).toNat = 2 * 2 ^ 28 + ra.toNat * 2 ^ 6 + rb.toNat * 2 ^ 3 + rc.toNat ∧
    (s.mem.segment? (s.reg ra) = none → ∃ t, exec (.store ra rb rc) s = .next t ∧ FaultTaken .segmentNotLive s t) ∧
    (∀ g, s.mem.segment? (s.reg ra) = some g → g.len ≤ (s.reg rb).toNat →
      ∃ t, exec (.store ra rb rc) s = .next t ∧ FaultTaken .offsetOutOfBounds s t) ∧
    (∀ g, s.mem.segment? (s.reg ra) = some g → (s.reg rb).toNat < g.len →
      ∃ t, exec (.store ra rb rc) s = .next t ∧
        t.mem.memRead (s.reg ra) (s.reg rb) = .ok (s.reg rc) ∧
        (∀ id off, id ≠ s.reg ra ∨ off ≠ s.reg rb → t.mem.memRead id off = s.mem.memRead id off) ∧
        (∃ g', t.mem.segment? (s.reg ra) = some g' ∧ g'.len = g.len) ∧
        t.mem.pool = s.mem.pool ∧ t.mem.tableSize = s.mem.tableSize ∧
        SameRegs s t ∧ NextInSequence s t ∧ Retires s t ∧ SameStreams s t)

/-- 43_halt_and_load_program.md R170: every word with opcode 7 is HALT; it ends the run, is counted, and keeps the incremented `pc`; the count
is what the host is told; and no other instruction ends a run successfully. -/
def Obligations.HaltResult : Prop :=
  encode .halt = 0x70000000 ∧ (∀ w : Word, w.toNat / 2 ^ 28 = 7 → decode w = .ok .halt) ∧
  ∀ s : State, ∃ t, exec .halt s = .next t ∧ t.status = .halted ∧ t.fault = s.fault ∧
    (∀ u, step t ≠ .next u) ∧ t.runEnd = some (.success t.icount) ∧
    SameRegs s t ∧ NextInSequence s t ∧ Counted s t ∧ SameMemory s t ∧ SameStreams s t ∧ SameEnvironment s t ∧
    ∀ s' t', step s' = .next t' → t'.status = .halted → ∃ w, s'.mem.fetch s'.pc = .ok w ∧ w.toNat / 2 ^ 28 = 7

/-- 44_segment_alloc.md R180, 20_memory.md R56: a refused allocation faults; else the most recently freed identifier is reused, else the table
size is minted; the new segment is all zeros. -/
def Obligations.MapResult : Prop :=
  ∀ (rb rc : Reg) (s : State), s.mem.wf = true →
    (encode (.map rb rc)).toNat = 8 * 2 ^ 28 + rb.toNat * 2 ^ 3 + rc.toNat ∧
    (s.allocOracle (s.reg rc) = false ∨ (s.mem.pool = [] ∧ s.mem.tableSize = 2 ^ 32) →
      ∃ t, exec (.map rb rc) s = .next t ∧ FaultTaken .allocFailed s t) ∧
    (∀ id rest, s.allocOracle (s.reg rc) = true → s.mem.pool = id :: rest →
      ∃ t, exec (.map rb rc) s = .next t ∧ t.reg rb = id ∧ NewSegment id (s.reg rc) s t ∧
        t.mem.pool = rest ∧ t.mem.tableSize = s.mem.tableSize ∧
        SameRegsBut rb s t ∧ NextInSequence s t ∧ Retires s t ∧ SameStreams s t) ∧
    (s.allocOracle (s.reg rc) = true → s.mem.pool = [] → s.mem.tableSize < 2 ^ 32 →
      ∃ t, exec (.map rb rc) s = .next t ∧ (t.reg rb).toNat = s.mem.tableSize ∧
        NewSegment (t.reg rb) (s.reg rc) s t ∧
        t.mem.pool = [] ∧ t.mem.tableSize = s.mem.tableSize + 1 ∧
        SameRegsBut rb s t ∧ NextInSequence s t ∧ Retires s t ∧ SameStreams s t)

/-- 44_segment_alloc.md R181, 20_memory.md R59: UNMAP of 0 and of an identifier that is not live fault; else the identifier is no longer live
and is on top of the reuse pool, and no other segment changes. -/
def Obligations.UnmapResult : Prop :=
  ∀ (rc : Reg) (s : State),
    (encode (.unmap rc)).toNat = 9 * 2 ^ 28 + rc.toNat ∧
    (s.reg rc = 0 → ∃ t, exec (.unmap rc) s = .next t ∧ FaultTaken .freeProgramSegment s t) ∧
    (s.reg rc ≠ 0 → s.mem.segment? (s.reg rc) = none →
      ∃ t, exec (.unmap rc) s = .next t ∧ FaultTaken .freeNotLive s t) ∧
    (∀ g, s.reg rc ≠ 0 → s.mem.segment? (s.reg rc) = some g →
      ∃ t, exec (.unmap rc) s = .next t ∧
        t.mem.isLive (s.reg rc) = false ∧ (∀ off, t.mem.memRead (s.reg rc) off = .error .segmentNotLive) ∧
        t.mem.pool = s.reg rc :: s.mem.pool ∧ t.mem.tableSize = s.mem.tableSize ∧
        (∀ id, id ≠ s.reg rc → ∀ off, t.mem.memRead id off = s.mem.memRead id off) ∧
        SameRegs s t ∧ NextInSequence s t ∧ Retires s t ∧ SameStreams s t)

/-- 45_io.md R190: a value above 255 faults and emits nothing; any other is appended to the trace as one byte. -/
def Obligations.OutResult : Prop :=
  ∀ (rc : Reg) (s : State),
    (encode (.out rc)).toNat = 10 * 2 ^ 28 + rc.toNat ∧
    (255 < (s.reg rc).toNat → ∃ t, exec (.out rc) s = .next t ∧ FaultTaken .outputRange s t) ∧
    ((s.reg rc).toNat ≤ 255 → ∃ (t : State) (b : Byte), exec (.out rc) s = .next t ∧
      b.toNat = (s.reg rc).toNat ∧ t.output = s.output ++ [b] ∧ t.inputPos = s.inputPos ∧
      SameRegs s t ∧ NextInSequence s t ∧ Retires s t ∧ SameMemory s t)

/-- 45_io.md R191, with the model's form of the input source (notes/assumptions/3.md) and of a hold (notes/assumptions/4.md): the next item, a
byte or end-of-stream; past the items, end-of-stream when the source is closed and a hold when it is not. -/
def Obligations.InResult : Prop :=
  ∀ (rc : Reg) (s : State),
    (encode (.inp rc)).toNat = 11 * 2 ^ 28 + rc.toNat ∧
    (∀ b, s.input.items[s.inputPos]? = some (.byte b) → ∃ t, exec (.inp rc) s = .next t ∧
      (t.reg rc).toNat = b.toNat ∧ SameRegsBut rc s t ∧ t.inputPos = s.inputPos + 1 ∧ t.output = s.output ∧
      NextInSequence s t ∧ Retires s t ∧ SameMemory s t) ∧
    (s.input.items[s.inputPos]? = some .endOfStream ∨
        (s.input.items[s.inputPos]? = none ∧ s.input.closed = true) → ∃ t, exec (.inp rc) s = .next t ∧
      t.reg rc = 0xFFFFFFFF ∧ SameRegsBut rc s t ∧ t.inputPos = s.inputPos + 1 ∧ t.output = s.output ∧
      NextInSequence s t ∧ Retires s t ∧ SameMemory s t) ∧
    (s.input.items[s.inputPos]? = none → s.input.closed = false → exec (.inp rc) s = .fault .inputHold)

/-- 43_halt_and_load_program.md R171, 20_memory.md R60: an identifier that is not live faults; else segment 0 reads as segment `x[rb]`, every
other segment as before, and `pc` is `x[rc]`; with `x[rb] = 0` memory does not change at all; a target past the new segment 0 faults in
the next cycle. -/
def Obligations.LoadpResult : Prop :=
  ∀ (rb rc : Reg) (s : State), s.mem.wf = true →
    (encode (.loadp rb rc)).toNat = 12 * 2 ^ 28 + rb.toNat * 2 ^ 3 + rc.toNat ∧
    (s.mem.segment? (s.reg rb) = none → ∃ t, exec (.loadp rb rc) s = .next t ∧ FaultTaken .segmentNotLive s t) ∧
    (∀ g, s.mem.segment? (s.reg rb) = some g →
      ∃ t, exec (.loadp rb rc) s = .next t ∧ t.pc = s.reg rc ∧
        t.mem.segment? 0 = some g ∧
        (∀ off, t.mem.memRead 0 off = s.mem.memRead (s.reg rb) off) ∧
        (∀ id, id ≠ 0 → ∀ off, t.mem.memRead id off = s.mem.memRead id off) ∧
        (s.reg rb = 0 → t.mem = s.mem) ∧
        t.mem.pool = s.mem.pool ∧ t.mem.tableSize = s.mem.tableSize ∧
        SameRegs s t ∧ Retires s t ∧ SameStreams s t ∧
        (s.status = .running → g.len ≤ (s.reg rc).toNat →
          ∃ u, step t = .next u ∧ FaultTaken .fetchOutOfBounds t u))

/-- 46_load_immediate.md R200: the destination is bits [27:25] and the immediate bits [24:0], zero-extended. -/
def Obligations.LiResult : Prop :=
  (∀ w : Word, w.toNat / 2 ^ 28 = 13 →
    ∃ (ra : Reg) (imm : Word), decode w = .ok (.li ra imm) ∧ ra.toNat = w.toNat / 2 ^ 25 % 8 ∧ imm.toNat = w.toNat % 2 ^ 25) ∧
  ∀ (ra : Reg) (imm : Word) (s : State), imm.toNat ≤ 0x01FFFFFF →
    (encode (.li ra imm)).toNat = 13 * 2 ^ 28 + ra.toNat * 2 ^ 25 + imm.toNat ∧
    ∃ t, exec (.li ra imm) s = .next t ∧ t.reg ra = imm ∧ SameRegsBut ra s t ∧
      NextInSequence s t ∧ Retires s t ∧ SameMemory s t ∧ SameStreams s t

/-! Over all instructions and all steps -/

/-- 60_exceptions.md R226: whatever a step does to reach Faulted is one of the nine fault entries, and nothing but the status and the fault
record changes. -/
def Obligations.FaultsArePrecise : Prop :=
  ∀ s t : State, step s = .next t → t.status = .faulted → ∃ code, FaultTaken code s t

/-- 60_exceptions.md R222, columns "raised by" and "condition": when a cycle ends in Faulted, the cause is the fetch's, the decoder's, or one
that the instruction of the cycle raises, under the table's condition. -/
def Obligations.FaultCausesAreTheTables : Prop :=
  ∀ s t : State, s.mem.wf = true → step s = .next t → t.status = .faulted →
    (t.fault.cause = 1 ∧ ∃ g, s.mem.segment? 0 = some g ∧ g.len ≤ s.pc.toNat) ∨
    ∃ w, s.mem.fetch s.pc = .ok w ∧
      ((t.fault.cause = 2 ∧ 14 ≤ w.toNat / 2 ^ 28) ∨
        ∃ i, decode w = .ok i ∧
          match i with
          | .load _ rb rc =>
            (t.fault.cause = 3 ∧ s.mem.isLive (s.reg rb) = false) ∨
            (t.fault.cause = 4 ∧ ∃ g, s.mem.segment? (s.reg rb) = some g ∧ g.len ≤ (s.reg rc).toNat)
          | .store ra rb _ =>
            (t.fault.cause = 3 ∧ s.mem.isLive (s.reg ra) = false) ∨
            (t.fault.cause = 4 ∧ ∃ g, s.mem.segment? (s.reg ra) = some g ∧ g.len ≤ (s.reg rb).toNat)
          | .div _ _ rc => t.fault.cause = 7 ∧ s.reg rc = 0
          | .map _ rc =>
            t.fault.cause = 9 ∧ (s.allocOracle (s.reg rc) = false ∨ (s.mem.pool = [] ∧ s.mem.tableSize = 2 ^ 32))
          | .unmap rc =>
            (t.fault.cause = 5 ∧ s.reg rc = 0) ∨
            (t.fault.cause = 6 ∧ s.reg rc ≠ 0 ∧ s.mem.isLive (s.reg rc) = false)
          | .out rc => t.fault.cause = 8 ∧ 255 < (s.reg rc).toNat
          | .loadp rb _ => t.fault.cause = 3 ∧ s.mem.isLive (s.reg rb) = false
          | .cmov _ _ _ => False
          | .add _ _ _ => False
          | .mul _ _ _ => False
          | .nand _ _ _ => False
          | .halt => False
          | .inp _ => False
          | .li _ _ => False)

/-- 20_memory.md R51 with the canonical form of memory, 10_state.md R29, R31, R35: every step keeps the invariant. -/
def Obligations.EveryStepKeepsTheInvariant : Prop :=
  ∀ s t : State, s.inv = true → step s = .next t → t.inv = true

/-- 70_reset_and_hazards.md R260, 20_memory.md R51, R72: the reset state meets the invariant. -/
def Obligations.ResetMeetsTheInvariant : Prop := State.reset.inv = true

/-- 20_memory.md R51, R72, 70_reset_and_hazards.md R264: reset with any image of at most 2^32 − 1 words establishes the invariant, from any
state. -/
def Obligations.ResetWithAnyImageEstablishesTheInvariant : Prop :=
  ∀ (s : State) (image : List Word), image.length ≤ 2 ^ 32 - 1 → (s.resetInput image).inv = true

/-- 10_state.md R23, 40_dispatch.md R127: an instruction writes at most the one register its row names, and none when it faults. -/
def Obligations.OnlyTheNamedRegisterIsWritten : Prop :=
  ∀ (i : Instr) (s t : State), exec i s = .next t →
    (∀ r, writesOf i ≠ some r → t.reg r = s.reg r) ∧
    (s.status = .running → t.status = .faulted → SameRegs s t)

/-- 10_state.md R24, 40_dispatch.md R126: registers that an instruction does not read have no influence on it: in two states that agree but for
such registers it has the same outcome, and each register either gets the same value in both or keeps its own. -/
def Obligations.OnlyTheReadRegistersMatter : Prop :=
  ∀ (i : Instr) (s s' : State), s' = { s with regs := s'.regs } → (∀ r ∈ readsOf i, s'.reg r = s.reg r) →
    (∀ t, exec i s = .next t → ∃ t', exec i s' = .next t' ∧ t' = { t with regs := t'.regs } ∧
      ∀ r, t'.reg r = t.reg r ∨ (t.reg r = s.reg r ∧ t'.reg r = s'.reg r)) ∧
    ∀ f, exec i s = .fault f → exec i s' = .fault f

/-- 10_state.md R32, 40_dispatch.md R128: a step counts one instruction, HALT included, and a cycle that faults is not counted. That the count
wraps at 2^64 is the model's reading (notes/assumptions/11.md). -/
def Obligations.IcountCountsRetirements : Prop :=
  ∀ s t : State, step s = .next t →
    (t.status = .faulted → t.icount = s.icount) ∧ (t.status ≠ .faulted → Counted s t)

/-- 10_state.md R27: after a step that does not fault, `pc` is the next offset in sequence, unless the instruction is LOADP, and then it is the
target LOADP names. -/
def Obligations.OnlyLoadpJumps : Prop :=
  ∀ s t : State, step s = .next t → t.status ≠ .faulted →
    ∃ w i, s.mem.fetch s.pc = .ok w ∧ decode w = .ok i ∧
      match i with
      | .loadp _ rc => t.pc = s.reg rc
      | _ => NextInSequence s t

/-- 10_state.md R34, R35: the output trace is append-only and only OUT appends, one byte at most; input is consumed only by IN, one item. -/
def Obligations.StreamsChangeOnlyByOutAndIn : Prop :=
  ∀ (i : Instr) (s t : State), exec i s = .next t →
    (t.output = s.output ∨ ∃ rc b, i = .out rc ∧ t.output = s.output ++ [b]) ∧
    (t.inputPos = s.inputPos ∨ ∃ rc, i = .inp rc ∧ t.inputPos = s.inputPos + 1)

/-- 10_state.md R36, R38: an instruction changes memory exactly as the memory manager's answer to its one data-port request does, and not at
all when it issues none. -/
def Obligations.MemoryChangesOnlyThroughTheDataPort : Prop :=
  ∀ (i : Instr) (s t : State), exec i s = .next t →
    t.mem = match requestOf i s with
      | some (.data r) => (s.serve r).2
      | _ => s.mem

/-- 10_state.md R36: a cycle issues exactly one fetch request, first, and at most one request on another port. -/
def Obligations.OneFetchAndAtMostOneOtherRequest : Prop :=
  ∀ s : State, s.status = .running →
    ∃ rest, cycleRequests s = .fetch s.pc :: rest ∧ rest.length ≤ 1 ∧ ∀ q ∈ rest, ∀ pc, q ≠ .fetch pc

/-! Memory across instructions -/

/-- 20_memory.md R68: a LOAD reads what the STORE before it to the same word wrote. -/
def Obligations.LoadReadsThePrecedingStore : Prop :=
  ∀ (ra rb rc rd : Reg) (s t : State), s.mem.wf = true → s.status = .running → exec (.store ra rb rc) s = .next t →
    t.status = .running → ∃ u, exec (.load rd ra rb) t = .next u ∧ u.reg rd = s.reg rc

/-- 20_memory.md R70, 70_reset_and_hazards.md R267: a STORE into segment 0 at the next offset is the instruction the next step runs. -/
def Obligations.StoreIntoProgramIsSeenByTheNextFetch : Prop :=
  ∀ (ra rb rc : Reg) (s t : State) (i : Instr), s.mem.wf = true → s.status = .running →
    s.reg ra = 0 → exec (.store ra rb rc) s = .next t → t.status = .running →
    t.mem.fetch (s.reg rb) = .ok (s.reg rc) ∧
    ((s.reg rb).toNat = (s.pc.toNat + 1) % 2 ^ 32 → decode (s.reg rc) = .ok i → step t = exec i t)

/-- 20_memory.md R60, R62: after a LOADP of a segment other than 0, a STORE into segment 0 does not change that segment, and a STORE into that
segment does not change segment 0. -/
def Obligations.LoadedProgramDoesNotAlias : Prop :=
  ∀ (rb rc : Reg) (s t : State), s.mem.wf = true → s.status = .running → s.reg rb ≠ 0 →
    exec (.loadp rb rc) s = .next t → t.status = .running →
    ∀ (ra' rb' rc' : Reg) (u : State), exec (.store ra' rb' rc') t = .next u →
      (t.reg ra' = 0 → ∀ off, u.mem.memRead (s.reg rb) off = s.mem.memRead (s.reg rb) off) ∧
      (t.reg ra' = s.reg rb → ∀ off, u.mem.memRead 0 off = s.mem.memRead (s.reg rb) off)

/-- 20_memory.md R57: an UNMAP followed at once by a MAP returns the same identifier, and the returned segment's words are all zero whatever
they were. -/
def Obligations.UnmapThenMapReusesTheIdentifier : Prop :=
  ∀ (ru rb rc : Reg) (s t : State), s.mem.wf = true → s.status = .running →
    exec (.unmap ru) s = .next t → t.status = .running → s.allocOracle (s.reg rc) = true →
    ∃ u, exec (.map rb rc) t = .next u ∧ u.reg rb = s.reg ru ∧ u.mem.pool = s.mem.pool ∧
      ∀ off, off.toNat < (s.reg rc).toNat → u.mem.memRead (s.reg ru) off = .ok 0

/-- 20_memory.md R57: with an empty pool, two allocations in succession return the table size and the number after it; the table size is 1
after reset, whatever the image, so from reset they are 1 and 2. -/
def Obligations.SuccessiveMapsMintIncreasingIdentifiers : Prop :=
  (∀ (s : State) (image : List Word), (s.resetInput image).mem.tableSize = 1 ∧ (s.resetInput image).mem.pool = []) ∧
  ∀ (rb rc rb' rc' : Reg) (s : State), s.mem.wf = true → s.mem.pool = [] → s.mem.tableSize + 1 < 2 ^ 32 →
    (∀ size, s.allocOracle size = true) →
    ∃ t u, exec (.map rb rc) s = .next t ∧ exec (.map rb' rc') t = .next u ∧
      (t.reg rb).toNat = s.mem.tableSize ∧ (u.reg rb').toNat = s.mem.tableSize + 1

/-! Reset, boot, the host and pseudo-instructions -/

/-- 70_reset_and_hazards.md R260, 10_state.md R21, R26, R42, 20_memory.md R72: the reset input gives the same state from any state but for the
environment's parameters: Running, every register, the fault record and the count 0, the streams empty, and segment 0 the image. -/
def Obligations.ResetSetsEveryPieceOfState : Prop :=
  ∀ (s : State) (image : List Word),
    (s.resetInput image).status = .running ∧ (s.resetInput image).pc = 0 ∧ (∀ r, (s.resetInput image).reg r = 0) ∧
    (s.resetInput image).fault.cause = 0 ∧ (s.resetInput image).fault.pc = 0 ∧ (s.resetInput image).fault.word = 0 ∧
    (s.resetInput image).icount = 0 ∧ (s.resetInput image).output = [] ∧ (s.resetInput image).inputPos = 0 ∧
    (s.resetInput image).mem.tableSize = 1 ∧ (s.resetInput image).mem.pool = [] ∧
    ∃ g, (s.resetInput image).mem.segment? 0 = some g ∧ g.len = image.length ∧ ∀ k, g.read? k = image[k]?

/-- 70_reset_and_hazards.md R263: word `k` of segment 0 after boot is made of the image bytes `4k` to `4k + 3`, the first the most
significant, and segment 0 has a quarter as many words as the image has bytes. -/
def Obligations.BootLoadsTheImageBigEndian : Prop :=
  ∀ (s t : State) (bytes : List Byte), s.boot bytes = some t →
    ∃ g, t.mem.segment? 0 = some g ∧ 4 * g.len = bytes.length ∧
      ∀ (k : Nat) (b0 b1 b2 b3 : Byte), bytes[4 * k]? = some b0 → bytes[4 * k + 1]? = some b1 →
        bytes[4 * k + 2]? = some b2 → bytes[4 * k + 3]? = some b3 →
        ∃ w, g.read? k = some w ∧ w.toNat = b0.toNat * 2 ^ 24 + b1.toNat * 2 ^ 16 + b2.toNat * 2 ^ 8 + b3.toNat

/-- 70_reset_and_hazards.md R264: exactly the images whose byte length is a multiple of 4 and that hold at most 2^32 − 1 words start a run; the
empty image does, and its first fetch faults at `pc = 0`. -/
def Obligations.BootRefusesOddImages : Prop :=
  (∀ (s : State) (bytes : List Byte),
    (∃ t, s.boot bytes = some t) ↔ (bytes.length % 4 = 0 ∧ bytes.length / 4 ≤ 2 ^ 32 - 1)) ∧
  ∀ s : State, ∃ t u, s.boot [] = some t ∧ step t = .next u ∧ FaultTaken .fetchOutOfBounds t u ∧ u.fault.pc = 0

/-- 10_state.md R41: the status port carries 0 in Running, 1 in Halted and 2 in Faulted, never 3, with the fault record and the count. -/
def Obligations.StatusPortCarriesTheRecord : Prop :=
  ∀ s : State,
    (s.statusPort.status = 0 ↔ s.status = .running) ∧ (s.statusPort.status = 1 ↔ s.status = .halted) ∧
    (s.statusPort.status = 2 ↔ s.status = .faulted) ∧ s.statusPort.status ≠ 3 ∧
    s.statusPort.cause = s.fault.cause ∧ s.statusPort.pc = s.fault.pc ∧ s.statusPort.word = s.fault.word ∧
    s.statusPort.icount = s.icount

/-- 60_exceptions.md R228, R229: from a state that meets the invariant, a step that ends the run ends it as a success with the count of
instructions or abnormally with a cause of 1 to 9, and after it there is no step. -/
def Obligations.RunEndsInSuccessOrRecordedFault : Prop :=
  ∀ (s t : State) (e : RunEnd), s.inv = true → step s = .next t → t.runEnd = some e →
    (∀ u, step t ≠ .next u) ∧
    ((e = .success t.icount ∧ t.status = .halted ∧ Counted s t) ∨
      (e = .abnormal t.fault ∧ 1 ≤ t.fault.cause.toNat ∧ t.fault.cause.toNat ≤ 9 ∧ t.fault.pc = s.pc))

/-- 30_encoding.md R102: NOP is the word 0 and changes only `pc` and `icount`; NOT is the complement; AND, in two words, is the bitwise AND
even when the destination is a source; JMP, when `x[rz] = 0`, only sets `pc` and counts. -/
def Obligations.PseudoInstructionsMeanTheirNames : Prop :=
  (Pseudo.nop.map encode = [0] ∧
    ∀ i ∈ Pseudo.nop, ∀ s, ∃ t, exec i s = .next t ∧ SameRegs s t ∧ NextInSequence s t ∧ Retires s t ∧
      SameMemory s t ∧ SameStreams s t) ∧
  (∀ (ra rb : Reg) (s : State), ∃ i t, Pseudo.not ra rb = [i] ∧ exec i s = .next t ∧
    t.reg ra = ~~~(s.reg rb) ∧ SameRegsBut ra s t) ∧
  (∀ (ra rb rc : Reg) (s : State), ∃ i j t u, Pseudo.and ra rb rc = [i, j] ∧ exec i s = .next t ∧ exec j t = .next u ∧
    u.reg ra = s.reg rb &&& s.reg rc ∧ SameRegsBut ra s u) ∧
  ∀ (rz rc : Reg) (s : State), s.mem.wf = true → s.reg rz = 0 →
    ∃ i t, Pseudo.jmp rz rc = [i] ∧ exec i s = .next t ∧ t.pc = s.reg rc ∧ SameRegs s t ∧ Retires s t ∧ SameMemory s t ∧
      SameStreams s t

/-- 70_reset_and_hazards.md R268: the implementation of Machine/Prefetch.lean, which fetches the next word while an instruction executes and
drops it after a STORE to its offset in segment 0 and after any LOADP, steps exactly as the machine does, as long as its buffer holds what
memory holds; and every step keeps that. -/
def Obligations.PrefetchingIsIndistinguishable : Prop :=
  ∀ p : Prefetcher, p.machine.mem.wf = true →
    (∀ off w, p.buffer = some (off, w) → p.machine.mem.fetch off = .ok w) →
    (∀ t, step p.machine = .next t → ∃ q, p.step = .next q ∧ q.machine = t ∧
      ∀ off w, q.buffer = some (off, w) → q.machine.mem.fetch off = .ok w) ∧
    (∀ f, step p.machine = .fault f → p.step = .fault f) ∧
    ∀ r, step p.machine ≠ .refused r
end

