-- ==== Sys2Proof/Laws/Decode.lean ====
section
/-! SUPPORT. The fields of a word and the encoding functions as arithmetic (30_encoding.md R91 to R93, R95, R100), and what the decoder can
answer, said once. -/

namespace Sys2Proof

theorem toNat_fieldOp (w : Word) : (fieldOp w).toNat = w.toNat / 2 ^ 28 := by
  have := w.isLt
  simp [fieldOp, Nat.shiftRight_eq_div_pow]
  omega

theorem toNat_fieldRa (w : Word) : (fieldRa w).toNat = w.toNat / 2 ^ 6 % 8 := by
  simp [fieldRa, Nat.shiftRight_eq_div_pow]

theorem toNat_fieldRb (w : Word) : (fieldRb w).toNat = w.toNat / 2 ^ 3 % 8 := by
  simp [fieldRb, Nat.shiftRight_eq_div_pow]

theorem toNat_fieldRc (w : Word) : (fieldRc w).toNat = w.toNat % 8 := by
  simp [fieldRc]

theorem toNat_fieldRaRi (w : Word) : (fieldRaRi w).toNat = w.toNat / 2 ^ 25 % 8 := by
  simp [fieldRaRi, Nat.shiftRight_eq_div_pow]

theorem toNat_fieldImm (w : Word) : (fieldImm w).toNat = w.toNat % 2 ^ 25 := by
  simp [fieldImm]
  omega

/-- `enc_rrr` as a sum: its fields do not overlap. -/
theorem toNat_encRrr (op : BitVec 4) (a b c : Reg) :
    (encRrr op a b c).toNat = op.toNat * 2 ^ 28 + a.toNat * 2 ^ 6 + b.toNat * 2 ^ 3 + c.toNat := by
  have ho := op.isLt
  have ha := a.isLt
  have hb := b.isLt
  have hc := c.isLt
  simp only [encRrr, BitVec.toNat_or, BitVec.toNat_shiftLeft, BitVec.toNat_setWidth]
  have h1 : (op.toNat % 2 ^ 32) <<< 28 % 2 ^ 32 = op.toNat <<< 28 := by simp only [Nat.shiftLeft_eq]; omega
  have h2 : (a.toNat % 2 ^ 32) <<< 6 % 2 ^ 32 = a.toNat <<< 6 := by simp only [Nat.shiftLeft_eq]; omega
  have h3 : (b.toNat % 2 ^ 32) <<< 3 % 2 ^ 32 = b.toNat <<< 3 := by simp only [Nat.shiftLeft_eq]; omega
  have h4 : c.toNat % 2 ^ 32 = c.toNat := by omega
  rw [h1, h2, h3, h4, Nat.or_assoc, Nat.or_assoc, ← Nat.shiftLeft_add_eq_or_of_lt hc,
    ← Nat.shiftLeft_add_eq_or_of_lt (by simp only [Nat.shiftLeft_eq]; omega : b.toNat <<< 3 + c.toNat < 2 ^ 6),
    ← Nat.shiftLeft_add_eq_or_of_lt
      (by simp only [Nat.shiftLeft_eq]; omega : a.toNat <<< 6 + (b.toNat <<< 3 + c.toNat) < 2 ^ 28)]
  simp only [Nat.shiftLeft_eq]
  omega

/-- `enc_ri` as a sum, for an immediate of at most 25 bits. -/
theorem toNat_encRi (a : Reg) {v : Word} (hv : v.toNat < 2 ^ 25) :
    (encRi a v).toNat = 13 * 2 ^ 28 + a.toNat * 2 ^ 25 + v.toNat := by
  have ha := a.isLt
  have h1 : (13#32 <<< 28 : Word).toNat = 13 <<< 28 := by decide
  have h2 : (a.toNat % 2 ^ 32) <<< 25 % 2 ^ 32 = a.toNat <<< 25 := by simp only [Nat.shiftLeft_eq]; omega
  rw [encRi, BitVec.toNat_or, BitVec.toNat_or, h1, BitVec.toNat_shiftLeft, BitVec.toNat_setWidth, h2, Nat.or_assoc,
    ← Nat.shiftLeft_add_eq_or_of_lt hv,
    ← Nat.shiftLeft_add_eq_or_of_lt (by simp only [Nat.shiftLeft_eq]; omega : a.toNat <<< 25 + v.toNat < 2 ^ 28)]
  simp only [Nat.shiftLeft_eq]
  omega

theorem fieldOp_encRrr (op : BitVec 4) (a b c : Reg) : fieldOp (encRrr op a b c) = op := by
  have := a.isLt
  have := b.isLt
  have := c.isLt
  apply BitVec.eq_of_toNat_eq
  rw [toNat_fieldOp, toNat_encRrr]
  omega

theorem fieldRa_encRrr (op : BitVec 4) (a b c : Reg) : fieldRa (encRrr op a b c) = a := by
  have := a.isLt
  have := b.isLt
  have := c.isLt
  apply BitVec.eq_of_toNat_eq
  rw [toNat_fieldRa, toNat_encRrr]
  omega

theorem fieldRb_encRrr (op : BitVec 4) (a b c : Reg) : fieldRb (encRrr op a b c) = b := by
  have := b.isLt
  have := c.isLt
  apply BitVec.eq_of_toNat_eq
  rw [toNat_fieldRb, toNat_encRrr]
  omega

theorem fieldRc_encRrr (op : BitVec 4) (a b c : Reg) : fieldRc (encRrr op a b c) = c := by
  have := c.isLt
  apply BitVec.eq_of_toNat_eq
  rw [toNat_fieldRc, toNat_encRrr]
  omega

theorem fieldOp_encRi (a : Reg) {v : Word} (hv : v.toNat < 2 ^ 25) : fieldOp (encRi a v) = 13 := by
  have := a.isLt
  apply BitVec.eq_of_toNat_eq
  rw [toNat_fieldOp, toNat_encRi a hv]
  change _ = 13
  omega

theorem fieldRaRi_encRi (a : Reg) {v : Word} (hv : v.toNat < 2 ^ 25) : fieldRaRi (encRi a v) = a := by
  have := a.isLt
  apply BitVec.eq_of_toNat_eq
  rw [toNat_fieldRaRi, toNat_encRi a hv]
  omega

theorem fieldImm_encRi (a : Reg) {v : Word} (hv : v.toNat < 2 ^ 25) : fieldImm (encRi a v) = v := by
  apply BitVec.eq_of_toNat_eq
  rw [toNat_fieldImm, toNat_encRi a hv]
  omega

/-- What the decoder can answer, by opcode (30_encoding.md R94, R98). -/
theorem decode_cases (w : Word) :
    ((fieldOp w).toNat = 0 ∧ decode w = .ok (.cmov (fieldRa w) (fieldRb w) (fieldRc w))) ∨
    ((fieldOp w).toNat = 1 ∧ decode w = .ok (.load (fieldRa w) (fieldRb w) (fieldRc w))) ∨
    ((fieldOp w).toNat = 2 ∧ decode w = .ok (.store (fieldRa w) (fieldRb w) (fieldRc w))) ∨
    ((fieldOp w).toNat = 3 ∧ decode w = .ok (.add (fieldRa w) (fieldRb w) (fieldRc w))) ∨
    ((fieldOp w).toNat = 4 ∧ decode w = .ok (.mul (fieldRa w) (fieldRb w) (fieldRc w))) ∨
    ((fieldOp w).toNat = 5 ∧ decode w = .ok (.div (fieldRa w) (fieldRb w) (fieldRc w))) ∨
    ((fieldOp w).toNat = 6 ∧ decode w = .ok (.nand (fieldRa w) (fieldRb w) (fieldRc w))) ∨
    ((fieldOp w).toNat = 7 ∧ decode w = .ok .halt) ∨
    ((fieldOp w).toNat = 8 ∧ decode w = .ok (.map (fieldRb w) (fieldRc w))) ∨
    ((fieldOp w).toNat = 9 ∧ decode w = .ok (.unmap (fieldRc w))) ∨
    ((fieldOp w).toNat = 10 ∧ decode w = .ok (.out (fieldRc w))) ∨
    ((fieldOp w).toNat = 11 ∧ decode w = .ok (.inp (fieldRc w))) ∨
    ((fieldOp w).toNat = 12 ∧ decode w = .ok (.loadp (fieldRb w) (fieldRc w))) ∨
    ((fieldOp w).toNat = 13 ∧ decode w = .ok (.li (fieldRaRi w) (fieldImm w))) ∨
    (13 < (fieldOp w).toNat ∧ decode w = .error (.invalidOpcode (fieldOp w))) := by
  have h : (fieldOp w).toNat < 16 := (fieldOp w).isLt
  unfold decode
  generalize (fieldOp w).toNat = n at h ⊢
  match n, h with
  | 0, _ => simp
  | 1, _ => simp
  | 2, _ => simp
  | 3, _ => simp
  | 4, _ => simp
  | 5, _ => simp
  | 6, _ => simp
  | 7, _ => simp
  | 8, _ => simp
  | 9, _ => simp
  | 10, _ => simp
  | 11, _ => simp
  | 12, _ => simp
  | 13, _ => simp
  | 14, _ => simp
  | 15, _ => simp
  | n + 16, h => omega

end Sys2Proof
end

