-- ==== Sys2Proof/Laws/Memory.lean ====
section
/-! SUPPORT. What each request of the memory manager can do, said once (20_memory.md R53 to R60), and that every one of them keeps the
invariants and the canonical form (R51). -/

namespace Sys2Proof.Machine

/-! Cells -/

/-- Offsets strictly rise and no cell holds 0. -/
def CellsWf (n : Nat) (l : List (Nat × Word)) : Prop :=
  l.Pairwise (fun a b => a.1 < b.1) ∧ ∀ c ∈ l, c.1 < n ∧ c.2 ≠ 0#32

theorem Segment.wf_iff (g : Segment) : g.wf = true ↔ g.len ≤ Config.maxSegmentLen ∧ CellsWf g.len g.cells := by
  simp [Segment.wf, CellsWf, and_assoc]

theorem cellAt_eq_zero {l : List (Nat × Word)} {off : Nat} (h : ∀ c ∈ l, off ≠ c.1) : cellAt l off = 0#32 := by
  induction l with
  | nil => rfl
  | cons c rest ih =>
    obtain ⟨k, w⟩ := c
    have hk : k ≠ off := fun e => h (k, w) (by simp) e.symm
    simpa [cellAt, hk] using ih fun c hc => h c (List.mem_cons_of_mem _ hc)

theorem cellAt_setCell_of_ne (l : List (Nat × Word)) {off off' : Nat} (v : Word) (h : off' ≠ off) :
    cellAt (setCell l off v) off' = cellAt l off' := by
  induction l with
  | nil => by_cases hv : v = 0#32 <;> simp [setCell, cellAt, hv, Ne.symm h]
  | cons c rest ih =>
    obtain ⟨k, w⟩ := c
    rcases Nat.lt_trichotomy off k with hlt | heq | hgt
    · by_cases hv : v = 0#32 <;> simp [setCell, cellAt, hlt, hv, Ne.symm h]
    · subst heq
      by_cases hv : v = 0#32 <;> simp [setCell, cellAt, hv, Ne.symm h]
    · have h1 : ¬ off < k := by omega
      have h2 : off ≠ k := by omega
      simp [setCell, cellAt, h1, h2, ih]

theorem cellAt_setCell_self {l : List (Nat × Word)} (hl : l.Pairwise (fun a b => a.1 < b.1)) (off : Nat) (v : Word) :
    cellAt (setCell l off v) off = v := by
  induction l with
  | nil => by_cases hv : v = 0#32 <;> simp [setCell, cellAt, hv]
  | cons c rest ih =>
    obtain ⟨k, w⟩ := c
    rw [List.pairwise_cons] at hl
    rcases Nat.lt_trichotomy off k with hlt | heq | hgt
    · by_cases hv : v = 0#32
      · have hz : cellAt ((k, w) :: rest) off = 0#32 := cellAt_eq_zero fun c hc => by
          rcases List.mem_cons.mp hc with rfl | hc
          · exact Nat.ne_of_lt hlt
          · exact Nat.ne_of_lt (Nat.lt_trans hlt (hl.1 c hc))
        simpa [setCell, hlt, hv] using hz
      · simp [setCell, cellAt, hlt, hv]
    · subst heq
      by_cases hv : v = 0#32
      · simpa [setCell, hv] using cellAt_eq_zero fun c hc => Nat.ne_of_lt (hl.1 c hc)
      · simp [setCell, cellAt, hv]
    · have h1 : ¬ off < k := by omega
      have h2 : off ≠ k := by omega
      simp [setCell, cellAt, h1, h2, Nat.ne_of_lt hgt, ih hl.2]

theorem mem_setCell {l : List (Nat × Word)} {off : Nat} {v : Word} {c : Nat × Word} (h : c ∈ setCell l off v) :
    c ∈ l ∨ (c = (off, v) ∧ v ≠ 0#32) := by
  induction l with
  | nil => by_cases hv : v = 0#32 <;> simp_all [setCell]
  | cons d rest ih =>
    obtain ⟨k, w⟩ := d
    simp only [setCell] at h
    split at h
    · split at h
      · exact .inl h
      · rcases List.mem_cons.mp h with h | h
        · exact .inr ⟨h, ‹_›⟩
        · exact .inl h
    · split at h
      · split at h
        · exact .inl (List.mem_cons_of_mem _ h)
        · rcases List.mem_cons.mp h with h | h
          · exact .inr ⟨h, ‹_›⟩
          · exact .inl (List.mem_cons_of_mem _ h)
      · rcases List.mem_cons.mp h with h | h
        · exact .inl (h ▸ List.mem_cons_self)
        · exact (ih h).imp_left (List.mem_cons_of_mem _)

theorem setCell_pairwise {l : List (Nat × Word)} (hl : l.Pairwise (fun a b => a.1 < b.1)) (off : Nat) (v : Word) :
    (setCell l off v).Pairwise (fun a b => a.1 < b.1) := by
  induction l with
  | nil => by_cases hv : v = 0#32 <;> simp [setCell, hv]
  | cons d rest ih =>
    obtain ⟨k, w⟩ := d
    have hc := List.pairwise_cons.mp hl
    simp only [setCell]
    split
    · split
      · exact hl
      · refine List.pairwise_cons.mpr ⟨fun c hm => ?_, hl⟩
        rcases List.mem_cons.mp hm with rfl | hm
        · assumption
        · exact Nat.lt_trans ‹off < k› (hc.1 c hm)
    · split
      · split
        · exact hc.2
        · subst ‹off = k›
          exact List.pairwise_cons.mpr ⟨hc.1, hc.2⟩
      · refine List.pairwise_cons.mpr ⟨fun c hm => ?_, ih hc.2⟩
        rcases mem_setCell hm with hm | ⟨rfl, -⟩
        · exact hc.1 c hm
        · change k < off
          omega

/-- Writing a word below the length keeps the canonical form. -/
theorem Segment.write_wf {g : Segment} (h : g.wf = true) {off : Nat} (ho : off < g.len) (v : Word) :
    (g.write off v).wf = true := by
  rw [Segment.wf_iff] at h ⊢
  refine ⟨h.1, setCell_pairwise h.2.1 off v, fun c hc => ?_⟩
  rcases mem_setCell hc with hc | ⟨rfl, hv⟩
  · exact h.2.2 c hc
  · exact ⟨ho, hv⟩

theorem Segment.read?_write_self {g : Segment} (h : g.wf = true) {off : Nat} (ho : off < g.len) (v : Word) :
    (g.write off v).read? off = some v := by
  rw [Segment.wf_iff] at h
  simp [Segment.read?, Segment.write, ho, cellAt_setCell_self h.2.1]

theorem Segment.read?_write_of_ne (g : Segment) {off off' : Nat} (v : Word) (h : off' ≠ off) :
    (g.write off v).read? off' = g.read? off' := by
  simp [Segment.read?, Segment.write, cellAt_setCell_of_ne _ _ h]

@[simp] theorem Segment.len_write (g : Segment) (off : Nat) (v : Word) : (g.write off v).len = g.len := rfl

@[simp] theorem Segment.read?_zeros (n off : Nat) : (Segment.zeros n).read? off = if off < n then some 0 else none := rfl

theorem Segment.zeros_wf (size : Word) : (Segment.zeros size.toNat).wf = true := by
  have := size.isLt
  simp only [Segment.wf_iff, Segment.zeros, Config.maxSegmentLen, CellsWf]
  exact ⟨by omega, by simp, by simp⟩

theorem cellsFrom_ge {ws : List Word} {at0 : Nat} {c : Nat × Word} (h : c ∈ cellsFrom at0 ws) :
    at0 ≤ c.1 ∧ c.1 < at0 + ws.length ∧ c.2 ≠ 0#32 := by
  induction ws generalizing at0 with
  | nil => simp [cellsFrom] at h
  | cons w ws ih =>
    simp only [cellsFrom] at h
    split at h
    · have := ih h
      simp only [List.length_cons]
      exact ⟨by omega, by omega, this.2.2⟩
    · rcases List.mem_cons.mp h with rfl | h
      · simp only [List.length_cons]
        exact ⟨Nat.le_refl _, by omega, ‹_›⟩
      · have := ih h
        simp only [List.length_cons]
        exact ⟨by omega, by omega, this.2.2⟩

theorem cellsFrom_pairwise (ws : List Word) (at0 : Nat) : (cellsFrom at0 ws).Pairwise (fun a b => a.1 < b.1) := by
  induction ws generalizing at0 with
  | nil => exact List.Pairwise.nil
  | cons w ws ih =>
    simp only [cellsFrom]
    split
    · exact ih _
    · exact List.pairwise_cons.mpr ⟨fun c hc => (cellsFrom_ge hc).1, ih _⟩

theorem cellAt_cellsFrom (ws : List Word) (at0 k : Nat) : cellAt (cellsFrom at0 ws) (at0 + k) = ws[k]?.getD 0#32 := by
  induction ws generalizing at0 k with
  | nil => simp [cellsFrom, cellAt]
  | cons w ws ih =>
    cases k with
    | zero =>
      by_cases hw : w = 0#32
      · simpa [cellsFrom, hw] using cellAt_eq_zero fun c hc => Nat.ne_of_lt (cellsFrom_ge hc).1
      · simp [cellsFrom, cellAt, hw]
    | succ k =>
      have e : at0 + (k + 1) = (at0 + 1) + k := by omega
      have hne : at0 ≠ at0 + 1 + k := by omega
      by_cases hw : w = 0#32 <;> simp [cellsFrom, cellAt, hw, e, ih, hne]

/-- A segment made of a list of words reads as that list (20_memory.md R72). -/
theorem Segment.read?_ofWords (ws : List Word) (k : Nat) : (Segment.ofWords ws).read? k = ws[k]? := by
  have h := cellAt_cellsFrom ws 0 k
  rw [Nat.zero_add] at h
  by_cases hk : k < ws.length
  · simp [Segment.read?, Segment.ofWords, hk, h]
  · simp [Segment.read?, Segment.ofWords, hk]

theorem Segment.ofWords_wf {ws : List Word} (h : ws.length ≤ Config.maxSegmentLen) : (Segment.ofWords ws).wf = true := by
  rw [Segment.wf_iff]
  refine ⟨h, cellsFrom_pairwise ws 0, fun c hc => ?_⟩
  have := cellsFrom_ge hc
  exact ⟨by simpa [Segment.ofWords] using this.2.1, this.2.2⟩

/-! Slots -/

/-- The segment in a slot. -/
def Slot.segment? : Slot → Option Segment
  | .free => none
  | .live g => some g

theorem Memory.segment?_eq (m : Memory) (id : Word) : m.segment? id = m.slots[id.toNat]?.bind Slot.segment? := by
  unfold Memory.segment?
  split <;> simp_all [Slot.segment?]

theorem Memory.segment?_some {m : Memory} {id : Word} {g : Segment} :
    m.segment? id = some g ↔ m.slots[id.toNat]? = some (.live g) := by
  unfold Memory.segment?
  split <;> simp_all

theorem Memory.lt_of_segment? {m : Memory} {id : Word} {g : Segment} (h : m.segment? id = some g) :
    id.toNat < m.slots.length := by
  rw [Memory.segment?_some] at h
  exact (List.getElem?_eq_some_iff.mp h).1

@[simp] theorem Memory.pool_setSlot (m : Memory) (id : Word) (sl : Slot) : (m.setSlot id sl).pool = m.pool := rfl

@[simp] theorem Memory.tableSize_setSlot (m : Memory) (id : Word) (sl : Slot) :
    (m.setSlot id sl).tableSize = m.tableSize := by
  simp [Memory.tableSize, Memory.setSlot]

@[simp] theorem Memory.segment?_pool (m : Memory) (p : List Word) (id : Word) :
    ({ m with pool := p } : Memory).segment? id = m.segment? id := rfl

theorem Memory.segment?_setSlot_self {m : Memory} {id : Word} (h : id.toNat < m.slots.length) (sl : Slot) :
    (m.setSlot id sl).segment? id = sl.segment? := by
  simp [Memory.segment?_eq, Memory.setSlot, h]

theorem Memory.segment?_setSlot_of_ne (m : Memory) {id id' : Word} (h : id' ≠ id) (sl : Slot) :
    (m.setSlot id sl).segment? id' = m.segment? id' := by
  have hn : id.toNat ≠ id'.toNat := fun e => h (BitVec.eq_of_toNat_eq e.symm)
  simp [Memory.segment?_eq, Memory.setSlot, hn]

/-- A read depends on the segment alone. -/
theorem Memory.memRead_congr {m m' : Memory} {id : Word} (h : m'.segment? id = m.segment? id) (off : Word) :
    m'.memRead id off = m.memRead id off := by
  simp [Memory.memRead, h]

/-! What each request can do -/

/-- What a read can answer (20_memory.md R53). -/
theorem Memory.memRead_cases (m : Memory) (id off : Word) :
    (m.segment? id = none ∧ m.memRead id off = .error .segmentNotLive) ∨
    (∃ g, m.segment? id = some g ∧ g.len ≤ off.toNat ∧ m.memRead id off = .error .offsetOutOfBounds) ∨
    (∃ g, m.segment? id = some g ∧ off.toNat < g.len ∧ m.memRead id off = .ok (cellAt g.cells off.toNat)) := by
  unfold Memory.memRead
  rcases hg : m.segment? id with _ | g
  · exact .inl ⟨rfl, rfl⟩
  · by_cases ho : off.toNat < g.len
    · exact .inr (.inr ⟨g, rfl, ho, by simp [Segment.read?, ho]⟩)
    · exact .inr (.inl ⟨g, rfl, by omega, by simp [Segment.read?, ho]⟩)

/-- A fetch reads segment 0, and faults exactly where a read of segment 0 does, with its own code (20_memory.md R55). -/
theorem Memory.fetch_eq (m : Memory) (pc : Word) :
    m.fetch pc = match m.memRead 0#32 pc with
      | .ok w => .ok w
      | .error _ => .error .fetchOutOfBounds := by
  unfold Memory.fetch Memory.memRead
  rcases m.segment? 0#32 with _ | g
  · rfl
  · dsimp only
    rcases g.read? pc.toNat with _ | w <;> rfl

/-- What a fetch can answer (20_memory.md R55). -/
theorem Memory.fetch_cases (m : Memory) (pc : Word) :
    (m.segment? 0#32 = none ∧ m.fetch pc = .error .fetchOutOfBounds) ∨
    (∃ g, m.segment? 0#32 = some g ∧ g.len ≤ pc.toNat ∧ m.fetch pc = .error .fetchOutOfBounds) ∨
    (∃ g, m.segment? 0#32 = some g ∧ pc.toNat < g.len ∧ m.fetch pc = .ok (cellAt g.cells pc.toNat)) := by
  rw [Memory.fetch_eq]
  obtain ⟨hg, e⟩ | ⟨g, hg, hl, e⟩ | ⟨g, hg, hl, e⟩ := m.memRead_cases 0#32 pc
  · exact .inl ⟨hg, by rw [e]⟩
  · exact .inr (.inl ⟨g, hg, hl, by rw [e]⟩)
  · exact .inr (.inr ⟨g, hg, hl, by rw [e]⟩)

theorem Memory.fetch_congr {m m' : Memory} {pc : Word} (h : m'.memRead 0#32 pc = m.memRead 0#32 pc) :
    m'.fetch pc = m.fetch pc := by
  rw [Memory.fetch_eq, Memory.fetch_eq, h]

/-- What a write can answer (20_memory.md R54). -/
theorem Memory.memWrite_cases (m : Memory) (id off v : Word) :
    (m.segment? id = none ∧ m.memWrite id off v = .error .segmentNotLive) ∨
    (∃ g, m.segment? id = some g ∧ g.len ≤ off.toNat ∧ m.memWrite id off v = .error .offsetOutOfBounds) ∨
    (∃ g, m.segment? id = some g ∧ off.toNat < g.len ∧
      m.memWrite id off v = .ok (m.setSlot id (.live (g.write off.toNat v)))) := by
  unfold Memory.memWrite
  rcases hg : m.segment? id with _ | g
  · exact .inl ⟨rfl, rfl⟩
  · by_cases ho : off.toNat < g.len
    · exact .inr (.inr ⟨g, rfl, ho, by simp [ho]⟩)
    · exact .inr (.inl ⟨g, rfl, by omega, by simp [ho]⟩)

/-- What an allocation can answer (20_memory.md R56). -/
theorem Memory.segAlloc_cases (m : Memory) (granted : Bool) (size : Word) :
    ((granted = false ∨ (m.pool = [] ∧ Config.maxSlots ≤ m.tableSize)) ∧
      m.segAlloc granted size = .error .allocFailed) ∨
    (∃ id rest, granted = true ∧ m.pool = id :: rest ∧
      m.segAlloc granted size = .ok (id, ({ m with pool := rest } : Memory).setSlot id (.live (.zeros size.toNat)))) ∨
    (granted = true ∧ m.pool = [] ∧ m.tableSize < Config.maxSlots ∧
      m.segAlloc granted size =
        .ok (BitVec.ofNat 32 m.tableSize, { m with slots := m.slots ++ [.live (.zeros size.toNat)] })) := by
  unfold Memory.segAlloc
  cases granted with
  | false => exact .inl ⟨.inl rfl, rfl⟩
  | true =>
    rcases hp : m.pool with _ | ⟨id, rest⟩
    · by_cases hn : m.tableSize < Config.maxSlots
      · exact .inr (.inr ⟨rfl, rfl, hn, by simp [hn]⟩)
      · exact .inl ⟨.inr ⟨rfl, by omega⟩, by simp [hn]⟩
    · exact .inr (.inl ⟨id, rest, rfl, rfl, rfl⟩)

/-- What a deallocation can answer (20_memory.md R59). -/
theorem Memory.segFree_cases (m : Memory) (id : Word) :
    (id = 0#32 ∧ m.segFree id = .error .freeProgramSegment) ∨
    (id ≠ 0#32 ∧ m.segment? id = none ∧ m.segFree id = .error .freeNotLive) ∨
    (∃ g, id ≠ 0#32 ∧ m.segment? id = some g ∧
      m.segFree id = .ok { m.setSlot id .free with pool := id :: m.pool }) := by
  unfold Memory.segFree
  by_cases h0 : id = 0#32
  · exact .inl ⟨h0, by simp [h0]⟩
  · rcases hg : m.segment? id with _ | g
    · exact .inr (.inl ⟨h0, rfl, by simp [h0]⟩)
    · exact .inr (.inr ⟨g, h0, rfl, by simp [h0]⟩)

/-- What a program load can answer (20_memory.md R60). -/
theorem Memory.segLoadProgram_cases (m : Memory) (id : Word) :
    (m.segment? id = none ∧ m.segLoadProgram id = .error .segmentNotLive) ∨
    (∃ g, m.segment? id = some g ∧ m.segLoadProgram id = .ok (m.setSlot 0#32 (.live g))) := by
  unfold Memory.segLoadProgram
  rcases m.segment? id with _ | g
  · exact .inl ⟨rfl, rfl⟩
  · exact .inr ⟨g, rfl, rfl⟩

/-! The invariants, and that every request keeps them -/

/-- The invariants of R51 as a proposition. -/
theorem Memory.wf_iff (m : Memory) : m.wf = true ↔
    (∃ g, m.segment? 0#32 = some g) ∧ m.tableSize ≤ Config.maxSlots ∧ (∀ sl ∈ m.slots, sl.wf = true) ∧ m.pool.Nodup ∧
      (∀ id ∈ m.pool, m.slots[id.toNat]? = some .free) ∧
      ∀ k < m.tableSize, m.slots[k]? = some .free → BitVec.ofNat 32 k ∈ m.pool := by
  simp only [Memory.wf, Memory.isLive, Option.isSome_iff_exists, Bool.and_eq_true, decide_eq_true_eq, List.all_eq_true,
    List.mem_range, and_assoc]

theorem Memory.segment_wf {m : Memory} (h : m.wf = true) {id : Word} {g : Segment} (hg : m.segment? id = some g) :
    g.wf = true := by
  rw [Memory.segment?_some] at hg
  exact ((Memory.wf_iff m).mp h).2.2.1 (.live g) (List.mem_of_getElem? hg)

theorem Memory.len_le {m : Memory} (h : m.wf = true) {id : Word} {g : Segment} (hg : m.segment? id = some g) :
    g.len ≤ Config.maxSegmentLen :=
  ((Segment.wf_iff g).mp (m.segment_wf h hg)).1

theorem Memory.zero_not_mem_pool {m : Memory} (h : m.wf = true) : 0#32 ∉ m.pool := by
  obtain ⟨⟨g, hg⟩, -, -, -, hp, -⟩ := (Memory.wf_iff m).mp h
  rw [Memory.segment?_some] at hg
  intro h0
  have := hp 0#32 h0
  rw [hg] at this
  cases this

theorem Memory.segment?_of_mem_pool {m : Memory} (h : m.wf = true) {id : Word} (hi : id ∈ m.pool) :
    m.segment? id = none ∧ id.toNat < m.slots.length := by
  have := ((Memory.wf_iff m).mp h).2.2.2.2.1 id hi
  exact ⟨by simp [Memory.segment?_eq, this, Slot.segment?], (List.getElem?_eq_some_iff.mp this).1⟩

/-- Replacing a live slot by a live one keeps the invariants. -/
theorem Memory.setSlot_live_wf {m : Memory} (h : m.wf = true) {id : Word} {g g' : Segment} (hg : m.segment? id = some g)
    (hw : g'.wf = true) : (m.setSlot id (.live g')).wf = true := by
  have hlt := Memory.lt_of_segment? hg
  rw [Memory.segment?_some] at hg
  obtain ⟨⟨g0, h0⟩, hn, hs, hd, hp, hf⟩ := (Memory.wf_iff m).mp h
  refine (Memory.wf_iff _).mpr ⟨?_, by simpa using hn, ?_, hd, ?_, ?_⟩
  · by_cases e : 0#32 = id
    · exact ⟨g', by rw [e, Memory.segment?_setSlot_self hlt]; rfl⟩
    · exact ⟨g0, by rw [Memory.segment?_setSlot_of_ne m e, h0]⟩
  · intro sl hsl
    rcases List.mem_or_eq_of_mem_set hsl with hsl | rfl
    · exact hs sl hsl
    · exact hw
  · intro i hi
    have hfree := hp i hi
    have hne : id.toNat ≠ i.toNat := fun e => by rw [← e, hg] at hfree; cases hfree
    simpa [Memory.setSlot, hne] using hfree
  · intro k hk hfree
    rw [Memory.tableSize_setSlot] at hk
    have hne : id.toNat ≠ k := fun e => by subst e; simp [Memory.setSlot, hlt] at hfree
    exact hf k hk (by simpa [Memory.setSlot, hne] using hfree)

theorem Memory.memWrite_wf {m m' : Memory} (h : m.wf = true) {id off v : Word} (he : m.memWrite id off v = .ok m') :
    m'.wf = true := by
  obtain ⟨-, e⟩ | ⟨g, -, -, e⟩ | ⟨g, hg, ho, e⟩ := m.memWrite_cases id off v
  · rw [e] at he; cases he
  · rw [e] at he; cases he
  · rw [e] at he
    cases he
    exact Memory.setSlot_live_wf h hg (Segment.write_wf (m.segment_wf h hg) ho v)

theorem Memory.segLoadProgram_wf {m m' : Memory} (h : m.wf = true) {id : Word} (he : m.segLoadProgram id = .ok m') :
    m'.wf = true := by
  obtain ⟨-, e⟩ | ⟨g, hg, e⟩ := m.segLoadProgram_cases id
  · rw [e] at he; cases he
  · rw [e] at he
    cases he
    obtain ⟨⟨g0, h0⟩, -⟩ := (Memory.wf_iff m).mp h
    exact Memory.setSlot_live_wf h h0 (m.segment_wf h hg)

theorem Memory.segFree_wf {m m' : Memory} (h : m.wf = true) {id : Word} (he : m.segFree id = .ok m') : m'.wf = true := by
  obtain ⟨-, e⟩ | ⟨-, -, e⟩ | ⟨g, hne, hg, e⟩ := m.segFree_cases id
  · rw [e] at he; cases he
  · rw [e] at he; cases he
  · rw [e] at he
    cases he
    have hlt := Memory.lt_of_segment? hg
    have hslot := Memory.segment?_some.mp hg
    obtain ⟨⟨g0, h0⟩, hn, hs, hd, hp, hf⟩ := (Memory.wf_iff m).mp h
    refine (Memory.wf_iff _).mpr ⟨⟨g0, ?_⟩, by simpa [Memory.tableSize, Memory.setSlot] using hn, ?_, ?_, ?_, ?_⟩
    · rw [Memory.segment?_pool, Memory.segment?_setSlot_of_ne m (Ne.symm hne), h0]
    · intro sl hsl
      rcases List.mem_or_eq_of_mem_set hsl with hsl | rfl
      · exact hs sl hsl
      · rfl
    · refine List.nodup_cons.mpr ⟨fun hi => ?_, hd⟩
      have := hp id hi
      rw [hslot] at this
      cases this
    · intro i hi
      rcases List.mem_cons.mp hi with rfl | hi
      · simp [Memory.setSlot, hlt]
      · have hfree := hp i hi
        have hn' : id.toNat ≠ i.toNat := fun e => by rw [← e, hslot] at hfree; cases hfree
        simpa [Memory.setSlot, hn'] using hfree
    · intro k hk hfree
      have hk' : k < m.tableSize := by simpa [Memory.tableSize, Memory.setSlot] using hk
      by_cases e : id.toNat = k
      · subst e
        simp
      · exact List.mem_cons_of_mem _ (hf k hk' (by simpa [Memory.setSlot, e] using hfree))

theorem Memory.segAlloc_wf {m m' : Memory} (h : m.wf = true) {granted : Bool} {size id : Word}
    (he : m.segAlloc granted size = .ok (id, m')) : m'.wf = true := by
  obtain ⟨⟨g0, h0⟩, hn, hs, hd, hp, hf⟩ := (Memory.wf_iff m).mp h
  obtain ⟨-, e⟩ | ⟨i, rest, -, hpool, e⟩ | ⟨-, hpool, hlt, e⟩ := m.segAlloc_cases granted size
  · rw [e] at he; cases he
  · rw [e] at he
    cases he
    have hi : id ∈ m.pool := by simp [hpool]
    have hfree := hp id hi
    have hlt := (Memory.segment?_of_mem_pool h hi).2
    have hne : 0#32 ≠ id := fun e => Memory.zero_not_mem_pool h (e ▸ hi)
    rw [hpool, List.nodup_cons] at hd
    refine (Memory.wf_iff _).mpr ⟨⟨g0, ?_⟩, by simpa [Memory.tableSize, Memory.setSlot] using hn, ?_, hd.2, ?_, ?_⟩
    · rw [Memory.segment?_setSlot_of_ne _ hne, Memory.segment?_pool, h0]
    · intro sl hsl
      rcases List.mem_or_eq_of_mem_set hsl with hsl | rfl
      · exact hs sl hsl
      · exact Segment.zeros_wf size
    · intro j hj
      have hji : id.toNat ≠ j.toNat := fun e => hd.1 (BitVec.eq_of_toNat_eq e ▸ hj)
      simpa [Memory.setSlot, hji] using hp j (by simp [hpool, show j ∈ rest from hj])
    · intro k hk hfk
      have hk' : k < m.tableSize := by simpa [Memory.tableSize, Memory.setSlot] using hk
      have hki : id.toNat ≠ k := fun e => by subst e; simp [Memory.setSlot, hlt] at hfk
      have hmem := hf k hk' (by simpa [Memory.setSlot, hki] using hfk)
      rw [hpool] at hmem
      rcases List.mem_cons.mp hmem with e | hmem
      · exfalso
        apply hki
        rw [← e, BitVec.toNat_ofNat, Nat.mod_eq_of_lt]
        exact Nat.lt_of_lt_of_le hk' hn
      · exact hmem
  · rw [e] at he
    cases he
    have hz : (0#32).toNat < m.slots.length := Memory.lt_of_segment? h0
    refine (Memory.wf_iff _).mpr ⟨⟨g0, ?_⟩, ?_, ?_, hd, ?_, ?_⟩
    · rw [Memory.segment?_some] at h0 ⊢
      rw [List.getElem?_append_left hz]
      exact h0
    · simpa [Memory.tableSize] using hlt
    · intro sl hsl
      rcases List.mem_append.mp hsl with hsl | hsl
      · exact hs sl hsl
      · rw [List.mem_singleton.mp hsl]
        exact Segment.zeros_wf size
    · intro i hi
      rw [hpool] at hi
      cases hi
    · intro k hk hfk
      by_cases e : k < m.slots.length
      · exact hf k e (by simpa [List.getElem?_append_left e] using hfk)
      · have hke : k = m.slots.length := by simp [Memory.tableSize] at hk; omega
        subst hke
        simp at hfk

/-! Reading after a request -/

theorem Memory.memRead_memWrite_self {m m' : Memory} (h : m.wf = true) {id off v : Word}
    (he : m.memWrite id off v = .ok m') : m'.memRead id off = .ok v := by
  obtain ⟨-, e⟩ | ⟨g, -, -, e⟩ | ⟨g, hg, ho, e⟩ := m.memWrite_cases id off v
  · rw [e] at he; cases he
  · rw [e] at he; cases he
  · rw [e] at he
    cases he
    simp [Memory.memRead, Memory.segment?_setSlot_self (Memory.lt_of_segment? hg), Slot.segment?,
      Segment.read?_write_self (m.segment_wf h hg) ho]

theorem Memory.memRead_memWrite_of_ne {m m' : Memory} {id off v : Word} (he : m.memWrite id off v = .ok m')
    {id' off' : Word} (hne : id' ≠ id ∨ off' ≠ off) : m'.memRead id' off' = m.memRead id' off' := by
  obtain ⟨-, e⟩ | ⟨g, -, -, e⟩ | ⟨g, hg, ho, e⟩ := m.memWrite_cases id off v
  · rw [e] at he; cases he
  · rw [e] at he; cases he
  · rw [e] at he
    cases he
    by_cases hi : id' = id
    · subst hi
      have hoff : off'.toNat ≠ off.toNat := fun e => hne.elim (fun f => f rfl) (fun f => f (BitVec.eq_of_toNat_eq e))
      simp [Memory.memRead, Memory.segment?_setSlot_self (Memory.lt_of_segment? hg), Slot.segment?, hg,
        Segment.read?_write_of_ne g v hoff]
    · exact Memory.memRead_congr (Memory.segment?_setSlot_of_ne m hi _) off'

/-- After a successful allocation: the new identifier was not live and is not 0, its segment is `size` zeros, and every other identifier is
as it was (20_memory.md R56). -/
theorem Memory.segAlloc_segment? {m m' : Memory} (h : m.wf = true) {granted : Bool} {size id : Word}
    (he : m.segAlloc granted size = .ok (id, m')) :
    id ≠ 0#32 ∧ m.segment? id = none ∧ m'.segment? id = some (.zeros size.toNat) ∧
      ∀ id', id' ≠ id → m'.segment? id' = m.segment? id' := by
  obtain ⟨-, e⟩ | ⟨i, rest, -, hpool, e⟩ | ⟨-, hpool, hlt, e⟩ := m.segAlloc_cases granted size
  · rw [e] at he; cases he
  · rw [e] at he
    cases he
    have hi : id ∈ m.pool := by simp [hpool]
    obtain ⟨hnone, hlt⟩ := Memory.segment?_of_mem_pool h hi
    refine ⟨fun e => Memory.zero_not_mem_pool h (e ▸ hi), hnone, ?_, fun id' hne => ?_⟩
    · rw [Memory.segment?_setSlot_self (m := { m with pool := rest }) hlt]; rfl
    · rw [Memory.segment?_setSlot_of_ne _ hne, Memory.segment?_pool]
  · rw [e] at he
    cases he
    obtain ⟨⟨g0, h0⟩, -⟩ := (Memory.wf_iff m).mp h
    have hz : 0 < m.slots.length := Nat.lt_of_le_of_lt (Nat.zero_le _) (Memory.lt_of_segment? h0)
    have hsmall : m.slots.length < 2 ^ 32 := hlt
    have htn : (BitVec.ofNat 32 m.tableSize).toNat = m.slots.length := by
      rw [BitVec.toNat_ofNat]; exact Nat.mod_eq_of_lt hsmall
    refine ⟨fun e => ?_, ?_, ?_, fun id' hne => ?_⟩
    · rw [e] at htn
      simp at htn
      omega
    · simp [Memory.segment?_eq, htn]
    · simp [Memory.segment?_eq, htn, Slot.segment?]
    · have hne' : id'.toNat ≠ m.slots.length := fun e => hne (BitVec.eq_of_toNat_eq (by rw [htn, e]))
      by_cases hlt' : id'.toNat < m.slots.length
      · simp [Memory.segment?_eq, List.getElem?_append_left hlt']
      · have : m.slots.length + 1 ≤ id'.toNat := by omega
        simp [Memory.segment?_eq, List.getElem?_eq_none (show m.slots.length ≤ id'.toNat by omega),
          List.getElem?_eq_none (show (m.slots ++ [Slot.live (.zeros size.toNat)]).length ≤ id'.toNat by simpa using this)]

/-- After a successful deallocation: the identifier was live and not 0, is not live now, and every other one is as it was (20_memory.md R59). -/
theorem Memory.segFree_segment? {m m' : Memory} {id : Word} (he : m.segFree id = .ok m') :
    id ≠ 0#32 ∧ m.isLive id = true ∧ m'.segment? id = none ∧ m'.pool = id :: m.pool ∧ m'.tableSize = m.tableSize ∧
      ∀ id', id' ≠ id → m'.segment? id' = m.segment? id' := by
  obtain ⟨-, e⟩ | ⟨-, -, e⟩ | ⟨g, hne, hg, e⟩ := m.segFree_cases id
  · rw [e] at he; cases he
  · rw [e] at he; cases he
  · rw [e] at he
    cases he
    refine ⟨hne, by simp [Memory.isLive, hg], ?_, rfl, ?_, fun id' hid => ?_⟩
    · rw [Memory.segment?_pool, Memory.segment?_setSlot_self (Memory.lt_of_segment? hg)]; rfl
    · simp [Memory.tableSize, Memory.setSlot]
    · rw [Memory.segment?_pool, Memory.segment?_setSlot_of_ne m hid]

/-- After a program load: segment 0 is the named segment, and every other one is as it was (20_memory.md R60). -/
theorem Memory.segLoadProgram_segment? {m m' : Memory} (h : m.wf = true) {id : Word} (he : m.segLoadProgram id = .ok m') :
    m'.segment? 0#32 = m.segment? id ∧ m'.pool = m.pool ∧ m'.tableSize = m.tableSize ∧
      ∀ id', id' ≠ 0#32 → m'.segment? id' = m.segment? id' := by
  obtain ⟨-, e⟩ | ⟨g, hg, e⟩ := m.segLoadProgram_cases id
  · rw [e] at he; cases he
  · rw [e] at he
    cases he
    obtain ⟨⟨g0, h0⟩, -⟩ := (Memory.wf_iff m).mp h
    refine ⟨?_, rfl, by simp, fun id' hid => Memory.segment?_setSlot_of_ne m hid _⟩
    rw [Memory.segment?_setSlot_self (Memory.lt_of_segment? h0), hg]
    rfl

/-- Placing a fetch word: the fetch at that offset answers it. -/
theorem Memory.placeWord_wf {m : Memory} (h : m.wf = true) (pc w : Word) (hpc : pc.toNat < Config.maxSegmentLen) :
    (m.placeWord pc w).wf = true ∧ (m.placeWord pc w).fetch pc = .ok w := by
  obtain ⟨⟨g, hg⟩, -⟩ := (Memory.wf_iff m).mp h
  have hwf := m.segment_wf h hg
  have hslot := Memory.segment?_some.mp hg
  rcases hs : m.slots with _ | ⟨sl, rest⟩
  · simp [hs] at hslot
  · rw [hs] at hslot
    simp at hslot
    subst hslot
    have hext : ({ g with len := max g.len (pc.toNat + 1) } : Segment).wf = true := by
      rw [Segment.wf_iff] at hwf ⊢
      refine ⟨by simp only; omega, hwf.2.1, fun c hc => ?_⟩
      have := hwf.2.2 c hc
      exact ⟨by simp only; omega, this.2⟩
    have hlt : pc.toNat < ({ g with len := max g.len (pc.toNat + 1) } : Segment).len := by simp only; omega
    have e : m.placeWord pc w =
        m.setSlot 0#32 (.live ({ g with len := max g.len (pc.toNat + 1) }.write pc.toNat w)) := by
      simp [Memory.placeWord, Memory.setSlot, hs]
    rw [e]
    refine ⟨Memory.setSlot_live_wf h hg (Segment.write_wf hext hlt w), ?_⟩
    unfold Memory.fetch
    rw [Memory.segment?_setSlot_self (Memory.lt_of_segment? hg)]
    simp [Slot.segment?, Segment.read?_write_self hext hlt]

end Sys2Proof.Machine
end

