-- ==== Sys2Proof/Laws/State.lean ====
section
/-! SUPPORT. One lemma per field per update of State, and the register file's read-after-write laws, so that no proof unfolds a record
update. -/

namespace Sys2Proof.Machine

theorem State.reg_setReg (s : State) (r r' : Reg) (v : Word) :
    (s.setReg r v).reg r' = if r' = r then v else s.reg r' := by
  unfold State.reg State.setReg
  by_cases h : r' = r
  · subst h; simp
  · have hn : r.toNat ≠ r'.toNat := fun e => h (BitVec.eq_of_toNat_eq e.symm)
    simp [h, hn]

@[simp] theorem State.reg_setReg_self (s : State) (r : Reg) (v : Word) : (s.setReg r v).reg r = v := by
  simp [State.reg_setReg]

@[simp] theorem State.reg_setReg_of_ne (s : State) {r r' : Reg} (v : Word) (h : r' ≠ r) :
    (s.setReg r v).reg r' = s.reg r' := by
  simp [State.reg_setReg, h]

@[simp] theorem State.regs_advance (s : State) : (s.advance).regs = s.regs := rfl
@[simp] theorem State.pc_advance (s : State) : (s.advance).pc = s.pc + 1#32 := rfl
@[simp] theorem State.status_advance (s : State) : (s.advance).status = s.status := rfl
@[simp] theorem State.fault_advance (s : State) : (s.advance).fault = s.fault := rfl
@[simp] theorem State.icount_advance (s : State) : (s.advance).icount = s.icount := rfl
@[simp] theorem State.output_advance (s : State) : (s.advance).output = s.output := rfl
@[simp] theorem State.inputPos_advance (s : State) : (s.advance).inputPos = s.inputPos := rfl
@[simp] theorem State.mem_advance (s : State) : (s.advance).mem = s.mem := rfl
@[simp] theorem State.input_advance (s : State) : (s.advance).input = s.input := rfl
@[simp] theorem State.refusedSizes_advance (s : State) : (s.advance).refusedSizes = s.refusedSizes := rfl
@[simp] theorem State.reg_advance (s : State) (i : Reg) : (s.advance).reg i = s.reg i := rfl

@[simp] theorem State.regs_retire (s : State) : (s.retire).regs = s.regs := rfl
@[simp] theorem State.pc_retire (s : State) : (s.retire).pc = s.pc := rfl
@[simp] theorem State.status_retire (s : State) : (s.retire).status = s.status := rfl
@[simp] theorem State.fault_retire (s : State) : (s.retire).fault = s.fault := rfl
@[simp] theorem State.icount_retire (s : State) : (s.retire).icount = s.icount + 1#64 := rfl
@[simp] theorem State.output_retire (s : State) : (s.retire).output = s.output := rfl
@[simp] theorem State.inputPos_retire (s : State) : (s.retire).inputPos = s.inputPos := rfl
@[simp] theorem State.mem_retire (s : State) : (s.retire).mem = s.mem := rfl
@[simp] theorem State.input_retire (s : State) : (s.retire).input = s.input := rfl
@[simp] theorem State.refusedSizes_retire (s : State) : (s.retire).refusedSizes = s.refusedSizes := rfl
@[simp] theorem State.reg_retire (s : State) (i : Reg) : (s.retire).reg i = s.reg i := rfl

@[simp] theorem State.regs_setPc (s : State) (p : Word) : (s.setPc p).regs = s.regs := rfl
@[simp] theorem State.pc_setPc (s : State) (p : Word) : (s.setPc p).pc = p := rfl
@[simp] theorem State.status_setPc (s : State) (p : Word) : (s.setPc p).status = s.status := rfl
@[simp] theorem State.fault_setPc (s : State) (p : Word) : (s.setPc p).fault = s.fault := rfl
@[simp] theorem State.icount_setPc (s : State) (p : Word) : (s.setPc p).icount = s.icount := rfl
@[simp] theorem State.output_setPc (s : State) (p : Word) : (s.setPc p).output = s.output := rfl
@[simp] theorem State.inputPos_setPc (s : State) (p : Word) : (s.setPc p).inputPos = s.inputPos := rfl
@[simp] theorem State.mem_setPc (s : State) (p : Word) : (s.setPc p).mem = s.mem := rfl
@[simp] theorem State.input_setPc (s : State) (p : Word) : (s.setPc p).input = s.input := rfl
@[simp] theorem State.refusedSizes_setPc (s : State) (p : Word) : (s.setPc p).refusedSizes = s.refusedSizes := rfl
@[simp] theorem State.reg_setPc (s : State) (p : Word) (i : Reg) : (s.setPc p).reg i = s.reg i := rfl

@[simp] theorem State.regs_setMem (s : State) (m : Memory) : (s.setMem m).regs = s.regs := rfl
@[simp] theorem State.pc_setMem (s : State) (m : Memory) : (s.setMem m).pc = s.pc := rfl
@[simp] theorem State.status_setMem (s : State) (m : Memory) : (s.setMem m).status = s.status := rfl
@[simp] theorem State.fault_setMem (s : State) (m : Memory) : (s.setMem m).fault = s.fault := rfl
@[simp] theorem State.icount_setMem (s : State) (m : Memory) : (s.setMem m).icount = s.icount := rfl
@[simp] theorem State.output_setMem (s : State) (m : Memory) : (s.setMem m).output = s.output := rfl
@[simp] theorem State.inputPos_setMem (s : State) (m : Memory) : (s.setMem m).inputPos = s.inputPos := rfl
@[simp] theorem State.mem_setMem (s : State) (m : Memory) : (s.setMem m).mem = m := rfl
@[simp] theorem State.input_setMem (s : State) (m : Memory) : (s.setMem m).input = s.input := rfl
@[simp] theorem State.refusedSizes_setMem (s : State) (m : Memory) : (s.setMem m).refusedSizes = s.refusedSizes := rfl
@[simp] theorem State.reg_setMem (s : State) (m : Memory) (i : Reg) : (s.setMem m).reg i = s.reg i := rfl

@[simp] theorem State.regs_setStatus (s : State) (v : Status) : (s.setStatus v).regs = s.regs := rfl
@[simp] theorem State.pc_setStatus (s : State) (v : Status) : (s.setStatus v).pc = s.pc := rfl
@[simp] theorem State.status_setStatus (s : State) (v : Status) : (s.setStatus v).status = v := rfl
@[simp] theorem State.fault_setStatus (s : State) (v : Status) : (s.setStatus v).fault = s.fault := rfl
@[simp] theorem State.icount_setStatus (s : State) (v : Status) : (s.setStatus v).icount = s.icount := rfl
@[simp] theorem State.output_setStatus (s : State) (v : Status) : (s.setStatus v).output = s.output := rfl
@[simp] theorem State.inputPos_setStatus (s : State) (v : Status) : (s.setStatus v).inputPos = s.inputPos := rfl
@[simp] theorem State.mem_setStatus (s : State) (v : Status) : (s.setStatus v).mem = s.mem := rfl
@[simp] theorem State.input_setStatus (s : State) (v : Status) : (s.setStatus v).input = s.input := rfl
@[simp] theorem State.refusedSizes_setStatus (s : State) (v : Status) : (s.setStatus v).refusedSizes = s.refusedSizes := rfl
@[simp] theorem State.reg_setStatus (s : State) (v : Status) (i : Reg) : (s.setStatus v).reg i = s.reg i := rfl

@[simp] theorem State.regs_outByte (s : State) (b : Byte) : (s.outByte b).regs = s.regs := rfl
@[simp] theorem State.pc_outByte (s : State) (b : Byte) : (s.outByte b).pc = s.pc := rfl
@[simp] theorem State.status_outByte (s : State) (b : Byte) : (s.outByte b).status = s.status := rfl
@[simp] theorem State.fault_outByte (s : State) (b : Byte) : (s.outByte b).fault = s.fault := rfl
@[simp] theorem State.icount_outByte (s : State) (b : Byte) : (s.outByte b).icount = s.icount := rfl
@[simp] theorem State.output_outByte (s : State) (b : Byte) : (s.outByte b).output = s.output ++ [b] := rfl
@[simp] theorem State.inputPos_outByte (s : State) (b : Byte) : (s.outByte b).inputPos = s.inputPos := rfl
@[simp] theorem State.mem_outByte (s : State) (b : Byte) : (s.outByte b).mem = s.mem := rfl
@[simp] theorem State.input_outByte (s : State) (b : Byte) : (s.outByte b).input = s.input := rfl
@[simp] theorem State.refusedSizes_outByte (s : State) (b : Byte) : (s.outByte b).refusedSizes = s.refusedSizes := rfl
@[simp] theorem State.reg_outByte (s : State) (b : Byte) (i : Reg) : (s.outByte b).reg i = s.reg i := rfl

@[simp] theorem State.regs_consumeInput (s : State) : (s.consumeInput).regs = s.regs := rfl
@[simp] theorem State.pc_consumeInput (s : State) : (s.consumeInput).pc = s.pc := rfl
@[simp] theorem State.status_consumeInput (s : State) : (s.consumeInput).status = s.status := rfl
@[simp] theorem State.fault_consumeInput (s : State) : (s.consumeInput).fault = s.fault := rfl
@[simp] theorem State.icount_consumeInput (s : State) : (s.consumeInput).icount = s.icount := rfl
@[simp] theorem State.output_consumeInput (s : State) : (s.consumeInput).output = s.output := rfl
@[simp] theorem State.inputPos_consumeInput (s : State) : (s.consumeInput).inputPos = s.inputPos + 1 := rfl
@[simp] theorem State.mem_consumeInput (s : State) : (s.consumeInput).mem = s.mem := rfl
@[simp] theorem State.input_consumeInput (s : State) : (s.consumeInput).input = s.input := rfl
@[simp] theorem State.refusedSizes_consumeInput (s : State) : (s.consumeInput).refusedSizes = s.refusedSizes := rfl
@[simp] theorem State.reg_consumeInput (s : State) (i : Reg) : (s.consumeInput).reg i = s.reg i := rfl

@[simp] theorem State.pc_setReg (s : State) (r : Reg) (v : Word) : (s.setReg r v).pc = s.pc := rfl
@[simp] theorem State.status_setReg (s : State) (r : Reg) (v : Word) : (s.setReg r v).status = s.status := rfl
@[simp] theorem State.fault_setReg (s : State) (r : Reg) (v : Word) : (s.setReg r v).fault = s.fault := rfl
@[simp] theorem State.icount_setReg (s : State) (r : Reg) (v : Word) : (s.setReg r v).icount = s.icount := rfl
@[simp] theorem State.output_setReg (s : State) (r : Reg) (v : Word) : (s.setReg r v).output = s.output := rfl
@[simp] theorem State.inputPos_setReg (s : State) (r : Reg) (v : Word) : (s.setReg r v).inputPos = s.inputPos := rfl
@[simp] theorem State.mem_setReg (s : State) (r : Reg) (v : Word) : (s.setReg r v).mem = s.mem := rfl
@[simp] theorem State.input_setReg (s : State) (r : Reg) (v : Word) : (s.setReg r v).input = s.input := rfl
@[simp] theorem State.refusedSizes_setReg (s : State) (r : Reg) (v : Word) : (s.setReg r v).refusedSizes = s.refusedSizes := rfl

@[simp] theorem State.regs_faultEntry (s : State) (c : FaultCode) : (s.faultEntry c).regs = s.regs := rfl
@[simp] theorem State.pc_faultEntry (s : State) (c : FaultCode) : (s.faultEntry c).pc = s.pc := rfl
@[simp] theorem State.status_faultEntry (s : State) (c : FaultCode) : (s.faultEntry c).status = .faulted := rfl
@[simp] theorem State.fault_faultEntry (s : State) (c : FaultCode) :
    (s.faultEntry c).fault = { cause := c.code, pc := s.pc, word := s.cycleWord } := rfl
@[simp] theorem State.icount_faultEntry (s : State) (c : FaultCode) : (s.faultEntry c).icount = s.icount := rfl
@[simp] theorem State.output_faultEntry (s : State) (c : FaultCode) : (s.faultEntry c).output = s.output := rfl
@[simp] theorem State.inputPos_faultEntry (s : State) (c : FaultCode) : (s.faultEntry c).inputPos = s.inputPos := rfl
@[simp] theorem State.mem_faultEntry (s : State) (c : FaultCode) : (s.faultEntry c).mem = s.mem := rfl
@[simp] theorem State.input_faultEntry (s : State) (c : FaultCode) : (s.faultEntry c).input = s.input := rfl
@[simp] theorem State.refusedSizes_faultEntry (s : State) (c : FaultCode) : (s.faultEntry c).refusedSizes = s.refusedSizes := rfl
@[simp] theorem State.reg_faultEntry (s : State) (c : FaultCode) (i : Reg) : (s.faultEntry c).reg i = s.reg i := rfl

end Sys2Proof.Machine
end

