-- ==== Sys2Proof/Laws/Ops.lean ====
section
/-! SUPPORT. What each shared operation of a cycle can do, said once. -/

namespace Sys2Proof.Machine

/-! The three ways a cycle's outcome is made -/

theorem complete_eq (s : State) : complete s = .next s.retire := rfl

theorem raise_eq (s : State) (code : FaultCode) : raise s code = .next (s.faultEntry code) := rfl

theorem writeBack_eq (s : State) (r : Reg) (v : Word) : writeBack s r v = .next (s.advance.setReg r v).retire := rfl

@[simp] theorem State.reg_faultEntry_eq (s : State) (code : FaultCode) : (s.faultEntry code).regs = s.regs := rfl

theorem State.cycleWord_of_ok {s : State} {w : Word} (h : s.mem.fetch s.pc = .ok w) : s.cycleWord = w := by
  simp [State.cycleWord, h]

theorem State.cycleWord_of_error {s : State} {c : FaultCode} (h : s.mem.fetch s.pc = .error c) : s.cycleWord = 0#32 := by
  simp [State.cycleWord, h]

theorem State.sameMemory_of_eq {s t : State} (h : t.mem = s.mem) : SameMemory s t := ⟨h, fun _ _ => by rw [h]⟩

/-- Fault entry takes the fault of the cycle that began in its state, and changes nothing else (60_exceptions.md R226). -/
theorem faultTaken_faultEntry (s : State) (code : FaultCode) : FaultTaken code s (s.faultEntry code) :=
  ⟨rfl, rfl, rfl, fun _ h => State.cycleWord_of_ok h, fun _ h => State.cycleWord_of_error h, rfl, fun _ => rfl,
    State.sameMemory_of_eq rfl, ⟨rfl, rfl⟩, rfl, rfl, rfl⟩

theorem FaultCode.code_bounds (c : FaultCode) : 1 ≤ c.code.toNat ∧ c.code.toNat ≤ 9 := by
  cases c <;> decide

theorem FaultCode.code_injective {c d : FaultCode} (h : c.code = d.code) : c = d := by
  revert h
  cases c <;> cases d <;> decide

/-! The ALU -/

theorem Alu.select_cases (b c : Word) : (c = 0#32 ∧ Alu.select b c = none) ∨ (c ≠ 0#32 ∧ Alu.select b c = some b) := by
  by_cases h : c = 0#32 <;> simp [Alu.select, h]

theorem Alu.toNat_add (b c : Word) : (Alu.add b c).toNat = (b.toNat + c.toNat) % 2 ^ 32 := BitVec.toNat_add b c

theorem Alu.toNat_mul (b c : Word) : (Alu.mul b c).toNat = b.toNat * c.toNat % 2 ^ 32 := BitVec.toNat_mul b c

theorem Alu.div_cases (b c : Word) :
    (c = 0#32 ∧ Alu.div b c = .error .divideByZero) ∨
    (c ≠ 0#32 ∧ ∃ q, Alu.div b c = .ok q ∧ q.toNat = b.toNat / c.toNat) := by
  by_cases h : c = 0#32
  · exact .inl ⟨h, by simp [Alu.div, h]⟩
  · exact .inr ⟨h, b / c, by simp [Alu.div, h], BitVec.toNat_udiv⟩

theorem Alu.getLsbD_nand (b c : Word) (k : Nat) (hk : k < 32) :
    (Alu.nand b c).getLsbD k = !(b.getLsbD k && c.getLsbD k) := by
  simp [Alu.nand, hk]

/-! Input -/

/-- The three cases of the input answer (45_io.md R191, D13). -/
theorem State.inputAnswer_cases (s : State) :
    (∃ item, s.input.items[s.inputPos]? = some item ∧ s.inputAnswer = some item) ∨
    (s.input.items.length ≤ s.inputPos ∧ s.input.closed = true ∧ s.inputAnswer = some .endOfStream) ∨
    (s.input.items.length ≤ s.inputPos ∧ s.input.closed = false ∧ s.inputAnswer = none) := by
  unfold State.inputAnswer
  rcases h : s.input.items[s.inputPos]? with _ | item
  · have hl := List.getElem?_eq_none_iff.mp h
    cases hc : s.input.closed with
    | true => exact .inr (.inl ⟨hl, rfl, by simp⟩)
    | false => exact .inr (.inr ⟨hl, rfl, by simp⟩)
  · exact .inl ⟨item, rfl, rfl⟩

theorem toNat_inputWord_byte (b : Byte) : (inputWord (.byte b)).toNat = b.toNat := by
  have := b.isLt
  simp [inputWord]
  omega

end Sys2Proof.Machine
end

