-- ==== Sys2Proof/Laws/Exec.lean ====
section
/-! SUPPORT. The dispatch as equations, and what each meaning that asks its environment can answer, said once. -/

namespace Sys2Proof.Machine

@[simp] theorem exec_cmov (ra rb rc : Reg) (s : State) : exec (.cmov ra rb rc) s = execCmov ra rb rc s := rfl
@[simp] theorem exec_load (ra rb rc : Reg) (s : State) : exec (.load ra rb rc) s = execLoad ra rb rc s := rfl
@[simp] theorem exec_store (ra rb rc : Reg) (s : State) : exec (.store ra rb rc) s = execStore ra rb rc s := rfl
@[simp] theorem exec_add (ra rb rc : Reg) (s : State) : exec (.add ra rb rc) s = execAdd ra rb rc s := rfl
@[simp] theorem exec_mul (ra rb rc : Reg) (s : State) : exec (.mul ra rb rc) s = execMul ra rb rc s := rfl
@[simp] theorem exec_div (ra rb rc : Reg) (s : State) : exec (.div ra rb rc) s = execDiv ra rb rc s := rfl
@[simp] theorem exec_nand (ra rb rc : Reg) (s : State) : exec (.nand ra rb rc) s = execNand ra rb rc s := rfl
@[simp] theorem exec_halt (s : State) : exec .halt s = execHalt s := rfl
@[simp] theorem exec_map (rb rc : Reg) (s : State) : exec (.map rb rc) s = execMap rb rc s := rfl
@[simp] theorem exec_unmap (rc : Reg) (s : State) : exec (.unmap rc) s = execUnmap rc s := rfl
@[simp] theorem exec_out (rc : Reg) (s : State) : exec (.out rc) s = execOut rc s := rfl
@[simp] theorem exec_inp (rc : Reg) (s : State) : exec (.inp rc) s = execIn rc s := rfl
@[simp] theorem exec_loadp (rb rc : Reg) (s : State) : exec (.loadp rb rc) s = execLoadp rb rc s := rfl
@[simp] theorem exec_li (ra : Reg) (imm : Word) (s : State) : exec (.li ra imm) s = execLi ra imm s := rfl

/-- What CMOV can answer (41_move_and_arith.md R150). -/
theorem execCmov_cases (ra rb rc : Reg) (s : State) :
    (s.reg rc = 0#32 ∧ execCmov ra rb rc s = .next s.advance.retire) ∨
    (s.reg rc ≠ 0#32 ∧ execCmov ra rb rc s = .next (s.advance.setReg ra (s.reg rb)).retire) := by
  obtain ⟨h, e⟩ | ⟨h, e⟩ := Alu.select_cases (s.reg rb) (s.reg rc)
  · exact .inl ⟨h, by simp [execCmov, e, complete_eq]⟩
  · exact .inr ⟨h, by simp [execCmov, e, writeBack_eq]⟩

/-- What DIV can answer (41_move_and_arith.md R153). -/
theorem execDiv_cases (ra rb rc : Reg) (s : State) :
    (s.reg rc = 0#32 ∧ execDiv ra rb rc s = .next (s.faultEntry .divideByZero)) ∨
    (s.reg rc ≠ 0#32 ∧ ∃ q : Word, q.toNat = (s.reg rb).toNat / (s.reg rc).toNat ∧
      execDiv ra rb rc s = .next (s.advance.setReg ra q).retire) := by
  obtain ⟨h, e⟩ | ⟨h, q, e, hq⟩ := Alu.div_cases (s.reg rb) (s.reg rc)
  · exact .inl ⟨h, by simp [execDiv, e, raise_eq]⟩
  · exact .inr ⟨h, q, hq, by simp [execDiv, e, writeBack_eq]⟩

/-- What LOAD can answer (42_segment_access.md R160). -/
theorem execLoad_cases (ra rb rc : Reg) (s : State) :
    (∃ code, s.mem.memRead (s.reg rb) (s.reg rc) = .error code ∧ execLoad ra rb rc s = .next (s.faultEntry code)) ∨
    (∃ w, s.mem.memRead (s.reg rb) (s.reg rc) = .ok w ∧
      execLoad ra rb rc s = .next (s.advance.setReg ra w).retire) := by
  rcases e : s.mem.memRead (s.reg rb) (s.reg rc) with code | w
  · exact .inl ⟨code, rfl, by simp [execLoad, e, raise_eq]⟩
  · exact .inr ⟨w, rfl, by simp [execLoad, e, writeBack_eq]⟩

/-- What STORE can answer (42_segment_access.md R161). -/
theorem execStore_cases (ra rb rc : Reg) (s : State) :
    (∃ code, s.mem.memWrite (s.reg ra) (s.reg rb) (s.reg rc) = .error code ∧
      execStore ra rb rc s = .next (s.faultEntry code)) ∨
    (∃ m, s.mem.memWrite (s.reg ra) (s.reg rb) (s.reg rc) = .ok m ∧
      execStore ra rb rc s = .next (s.advance.setMem m).retire) := by
  rcases e : s.mem.memWrite (s.reg ra) (s.reg rb) (s.reg rc) with code | m
  · exact .inl ⟨code, rfl, by simp [execStore, e, raise_eq]⟩
  · exact .inr ⟨m, rfl, by simp [execStore, e, complete_eq]⟩

/-- What LOADP can answer (43_halt_and_load_program.md R171). -/
theorem execLoadp_cases (rb rc : Reg) (s : State) :
    (∃ code, s.mem.segLoadProgram (s.reg rb) = .error code ∧ execLoadp rb rc s = .next (s.faultEntry code)) ∨
    (∃ m, s.mem.segLoadProgram (s.reg rb) = .ok m ∧
      execLoadp rb rc s = .next ((s.advance.setMem m).setPc (s.reg rc)).retire) := by
  rcases e : s.mem.segLoadProgram (s.reg rb) with code | m
  · exact .inl ⟨code, rfl, by simp [execLoadp, e, raise_eq]⟩
  · exact .inr ⟨m, rfl, by simp [execLoadp, e, complete_eq]⟩

/-- What MAP can answer (44_segment_alloc.md R180). -/
theorem execMap_cases (rb rc : Reg) (s : State) :
    (∃ code, s.mem.segAlloc (s.allocOracle (s.reg rc)) (s.reg rc) = .error code ∧
      execMap rb rc s = .next (s.faultEntry code)) ∨
    (∃ id m, s.mem.segAlloc (s.allocOracle (s.reg rc)) (s.reg rc) = .ok (id, m) ∧
      execMap rb rc s = .next ((s.setMem m).advance.setReg rb id).retire) := by
  rcases e : s.mem.segAlloc (s.allocOracle (s.reg rc)) (s.reg rc) with code | ⟨id, m⟩
  · exact .inl ⟨code, rfl, by simp [execMap, e, raise_eq]⟩
  · exact .inr ⟨id, m, rfl, by simp [execMap, e, writeBack_eq]⟩

/-- What UNMAP can answer (44_segment_alloc.md R181). -/
theorem execUnmap_cases (rc : Reg) (s : State) :
    (∃ code, s.mem.segFree (s.reg rc) = .error code ∧ execUnmap rc s = .next (s.faultEntry code)) ∨
    (∃ m, s.mem.segFree (s.reg rc) = .ok m ∧ execUnmap rc s = .next (s.advance.setMem m).retire) := by
  rcases e : s.mem.segFree (s.reg rc) with code | m
  · exact .inl ⟨code, rfl, by simp [execUnmap, e, raise_eq]⟩
  · exact .inr ⟨m, rfl, by simp [execUnmap, e, complete_eq]⟩

/-- What OUT can answer (45_io.md R190). -/
theorem execOut_cases (rc : Reg) (s : State) :
    (255 < (s.reg rc).toNat ∧ execOut rc s = .next (s.faultEntry .outputRange)) ∨
    ((s.reg rc).toNat ≤ 255 ∧ execOut rc s = .next (s.advance.outByte ((s.reg rc).setWidth 8)).retire) := by
  by_cases h : 255 < (s.reg rc).toNat
  · exact .inl ⟨h, by simp [execOut, h, raise_eq]⟩
  · exact .inr ⟨by omega, by simp [execOut, h, complete_eq]⟩

/-- What IN can answer (45_io.md R191). -/
theorem execIn_cases (rc : Reg) (s : State) :
    (s.inputAnswer = none ∧ execIn rc s = .fault .inputHold) ∨
    (∃ item, s.inputAnswer = some item ∧
      execIn rc s = .next (s.consumeInput.advance.setReg rc (inputWord item)).retire) := by
  rcases e : s.inputAnswer with _ | item
  · exact .inl ⟨rfl, by simp [execIn, e]⟩
  · exact .inr ⟨item, rfl, by simp [execIn, e, writeBack_eq]⟩

/-! The cycle -/

theorem step_eq_of_running {s : State} (h : s.status = .running) : step s = runCycle s := by
  simp [step, stepCycle, h]

theorem running_of_step_next {s t : State} (h : step s = .next t) : s.status = .running := by
  unfold step stepCycle at h
  split at h <;> first | assumption | cases h

/-- What a cycle can do (40_dispatch.md R130): a fetch fault, a decode fault, or the decoded instruction. -/
theorem runCycle_cases (s : State) :
    (∃ code, s.mem.fetch s.pc = .error code ∧ runCycle s = .next (s.faultEntry code)) ∨
    (∃ w e, s.mem.fetch s.pc = .ok w ∧ decode w = .error e ∧ runCycle s = .next (s.faultEntry .invalidOpcode)) ∨
    (∃ w i, s.mem.fetch s.pc = .ok w ∧ decode w = .ok i ∧ runCycle s = exec i s) := by
  unfold runCycle
  rcases hf : s.mem.fetch s.pc with code | w
  · exact .inl ⟨code, rfl, rfl⟩
  · rcases hd : decode w with e | i
    · exact .inr (.inl ⟨w, e, rfl, hd, by simp [hd, raise_eq]⟩)
    · exact .inr (.inr ⟨w, i, rfl, hd, by simp [hd]⟩)

theorem Memory.fetch_error {m : Memory} {pc : Word} {code : FaultCode} (h : m.fetch pc = .error code) :
    code = .fetchOutOfBounds := by
  rw [Memory.fetch_eq] at h
  split at h <;> cases h
  rfl

end Sys2Proof.Machine
end

