-- ==== Sys2Proof/Laws/PerInstr.lean ====
section
/-! SUPPORT. A family of facts about the instructions as syntax, one lemma per constructor of Instr. `EncodedFields` says what the encoder puts
into the word: the opcode in bits [31:28] (30_encoding.md R91, R94), and 0 in every bit the instruction does not use (R100). -/

namespace Sys2Proof.Laws.EncodedFields

/-- The encoder writes the instruction's opcode in bits [31:28]; in format RRR the ignored bits [27:9] are 0. -/
def Statement (i : Instr) : Prop :=
  i.wellFormed = true → fieldOp (encode i) = i.opcode ∧ (i.opcode ≠ 13 → (encode i).toNat % 2 ^ 28 < 2 ^ 9)

theorem of_encRrr (op : BitVec 4) (a b c : Reg) :
    fieldOp (encRrr op a b c) = op ∧ (op ≠ 13 → (encRrr op a b c).toNat % 2 ^ 28 < 2 ^ 9) := by
  have := a.isLt
  have := b.isLt
  have := c.isLt
  refine ⟨fieldOp_encRrr op a b c, fun _ => ?_⟩
  rw [toNat_encRrr]
  omega

theorem cmov (ra rb rc : Reg) : Statement (.cmov ra rb rc) := fun _ => of_encRrr _ ra rb rc
theorem load (ra rb rc : Reg) : Statement (.load ra rb rc) := fun _ => of_encRrr _ ra rb rc
theorem store (ra rb rc : Reg) : Statement (.store ra rb rc) := fun _ => of_encRrr _ ra rb rc
theorem add (ra rb rc : Reg) : Statement (.add ra rb rc) := fun _ => of_encRrr _ ra rb rc
theorem mul (ra rb rc : Reg) : Statement (.mul ra rb rc) := fun _ => of_encRrr _ ra rb rc
theorem div (ra rb rc : Reg) : Statement (.div ra rb rc) := fun _ => of_encRrr _ ra rb rc
theorem nand (ra rb rc : Reg) : Statement (.nand ra rb rc) := fun _ => of_encRrr _ ra rb rc
theorem halt : Statement .halt := fun _ => of_encRrr _ 0 0 0
theorem map (rb rc : Reg) : Statement (.map rb rc) := fun _ => of_encRrr _ 0 rb rc
theorem unmap (rc : Reg) : Statement (.unmap rc) := fun _ => of_encRrr _ 0 0 rc
theorem out (rc : Reg) : Statement (.out rc) := fun _ => of_encRrr _ 0 0 rc
theorem inp (rc : Reg) : Statement (.inp rc) := fun _ => of_encRrr _ 0 0 rc
theorem loadp (rb rc : Reg) : Statement (.loadp rb rc) := fun _ => of_encRrr _ 0 rb rc

theorem li (ra : Reg) (imm : Word) : Statement (.li ra imm) := fun h =>
  ⟨fieldOp_encRi ra (of_decide_eq_true h), fun hne => absurd rfl hne⟩

end Sys2Proof.Laws.EncodedFields
end

