-- ==== Sys2Proof/Machine/Assembler.lean ====
section
/-! DEFINITION. The assembler syntax and the pseudo-instructions of the spec (30_encoding.md R101, R102), as a function from text to the words
of segment 0. It has no effect on the machine (D20, D21). What R101 leaves open is in notes/assumptions/14.md. -/

namespace Sys2Proof.Asm

/-- The pieces of a text between the occurrences of a separator. -/
def splitChar (sep : Char) : List Char → List (List Char)
  | [] => [[]]
  | c :: rest =>
    if c = sep then [] :: splitChar sep rest
    else
      match splitChar sep rest with
      | [] => [[c]]
      | piece :: pieces => (c :: piece) :: pieces

/-- White space within a line. -/
def isBlank (c : Char) : Bool := c == ' ' || c == '\t' || c == '\r'

/-- A text without the white space around it. -/
def trim (t : List Char) : List Char := ((t.dropWhile isBlank).reverse.dropWhile isBlank).reverse

/-- The value of a digit in a base of at most 16. -/
def digit (base : Nat) (c : Char) : Option Nat :=
  let n := c.toNat
  let v := if 48 ≤ n ∧ n ≤ 57 then n - 48 else if 65 ≤ n ∧ n ≤ 70 then n - 55 else if 97 ≤ n ∧ n ≤ 102 then n - 87 else 16
  if v < base then some v else none

/-- A run of digits after the value `acc`. -/
def digits (base acc : Nat) : List Char → Option Nat
  | [] => some acc
  | c :: rest =>
    match digit base c with
    | some d => digits base (acc * base + d) rest
    | none => none

/-- A decimal number, or a hexadecimal one after `0x` (R101). -/
def number : List Char → Option Nat
  | [] => none
  | '0' :: 'x' :: c :: rest => digits 16 0 (c :: rest)
  | c :: rest => digits 10 0 (c :: rest)

/-- A register, `r0` to `r7` (R101). -/
def register : List Char → Option Reg
  | ['r', d] => if 48 ≤ d.toNat ∧ d.toNat ≤ 55 then some (BitVec.ofNat 3 (d.toNat - 48)) else none
  | _ => none

/-- Whether a text can name a label: a letter or `_`, then letters, digits and `_`. -/
def isName : List Char → Bool
  | [] => false
  | c :: rest => (c.isAlpha || c == '_') && rest.all (fun d => d.isAlphanum || d == '_')

/-- An immediate: a number, or a label, which stands for an offset in segment 0 (R101). -/
inductive Value where
  | number (n : Nat)
  | label (name : List Char)
deriving DecidableEq, Repr

/-- An immediate operand. -/
def value (t : List Char) : Option Value :=
  match number t with
  | some n => some (.number n)
  | none => if isName t then some (.label t) else none

/-- What a line places in segment 0. -/
inductive Stmt where
  /-- Core instructions, after the expansion of R102. -/
  | code (l : List Instr)
  /-- LI, whose immediate may be a label. -/
  | li (ra : Reg) (v : Value)
  /-- `.word v`, a raw word (R101). -/
  | word (v : Value)
deriving DecidableEq, Repr

/-- How many words a statement places. -/
def Stmt.size : Stmt → Nat
  | .code l => l.length
  | .li _ _ => 1
  | .word _ => 1

/-- Three register operands. -/
def regs3 (f : Reg → Reg → Reg → List Instr) : List (List Char) → Option Stmt
  | [a, b, c] =>
    match register a, register b, register c with
    | some a, some b, some c => some (.code (f a b c))
    | _, _, _ => none
  | _ => none

/-- Two register operands. -/
def regs2 (f : Reg → Reg → List Instr) : List (List Char) → Option Stmt
  | [a, b] =>
    match register a, register b with
    | some a, some b => some (.code (f a b))
    | _, _ => none
  | _ => none

/-- One register operand. -/
def regs1 (f : Reg → List Instr) : List (List Char) → Option Stmt
  | [a] =>
    match register a with
    | some a => some (.code (f a))
    | none => none
  | _ => none

/-- No operand. -/
def regs0 (l : List Instr) : List (List Char) → Option Stmt
  | [] => some (.code l)
  | _ => none

/-- A register and an immediate. -/
def regImm : List (List Char) → Option Stmt
  | [a, v] =>
    match register a, value v with
    | some a, some v => some (.li a v)
    | _, _ => none
  | _ => none

/-- The operand of `.word`. -/
def rawWord : List (List Char) → Option Stmt
  | [v] =>
    match value v with
    | some v => some (.word v)
    | none => none
  | _ => none

/-- The operand list of each mnemonic (R101) and pseudo-instruction (R102). -/
def forms : List (List Char × (List (List Char) → Option Stmt)) :=
  [ (['C', 'M', 'O', 'V'], regs3 fun a b c => [.cmov a b c])
  , (['L', 'O', 'A', 'D'], regs3 fun a b c => [.load a b c])
  , (['S', 'T', 'O', 'R', 'E'], regs3 fun a b c => [.store a b c])
  , (['A', 'D', 'D'], regs3 fun a b c => [.add a b c])
  , (['M', 'U', 'L'], regs3 fun a b c => [.mul a b c])
  , (['D', 'I', 'V'], regs3 fun a b c => [.div a b c])
  , (['N', 'A', 'N', 'D'], regs3 fun a b c => [.nand a b c])
  , (['H', 'A', 'L', 'T'], regs0 [.halt])
  , (['M', 'A', 'P'], regs2 fun b c => [.map b c])
  , (['U', 'N', 'M', 'A', 'P'], regs1 fun c => [.unmap c])
  , (['O', 'U', 'T'], regs1 fun c => [.out c])
  , (['I', 'N'], regs1 fun c => [.inp c])
  , (['L', 'O', 'A', 'D', 'P'], regs2 fun b c => [.loadp b c])
  , (['L', 'I'], regImm)
  , (['N', 'O', 'P'], regs0 Pseudo.nop)
  , (['N', 'O', 'T'], regs2 Pseudo.not)
  , (['A', 'N', 'D'], regs3 Pseudo.and)
  , (['J', 'M', 'P'], regs2 Pseudo.jmp)
  , (['.', 'w', 'o', 'r', 'd'], rawWord) ]

/-- The statement of a trimmed text that is not empty: the mnemonic, then operands separated by commas (R101). -/
def statement (t : List Char) : Option Stmt :=
  let mnemonic := t.takeWhile (fun c => !isBlank c)
  let rest := trim (t.drop mnemonic.length)
  let operands := if rest = [] then [] else (splitChar ',' rest).map trim
  match forms.find? (fun f => f.1 == mnemonic) with
  | some f => f.2 operands
  | none => none

/-- One line: the labels before it and what it places. -/
structure Line where
  labels : List (List Char)
  stmt : Option Stmt
deriving DecidableEq, Repr

/-- Peels the labels of a line off its pieces between colons; the last piece is the statement. -/
def lineOf : List (List Char) → Option Line
  | [] => some { labels := [], stmt := none }
  | [t] =>
    let t := trim t
    if t = [] then some { labels := [], stmt := none }
    else
      match statement t with
      | some st => some { labels := [], stmt := some st }
      | none => none
  | name :: rest =>
    if isName (trim name) then
      match lineOf rest with
      | some l => some { l with labels := trim name :: l.labels }
      | none => none
    else none

/-- A line of text: a comment starts with a semicolon, a label ends with a colon (R101). -/
def line (t : List Char) : Option Line := lineOf (splitChar ':' (t.takeWhile (fun c => c != ';')))

/-- How many words a line places. -/
def Line.size (l : Line) : Nat :=
  match l.stmt with
  | some st => st.size
  | none => 0

/-- The lines of a text. -/
def linesOf : List (List Char) → Option (List Line)
  | [] => some []
  | t :: ts =>
    match line t, linesOf ts with
    | some l, some ls => some (l :: ls)
    | _, _ => none

/-- Every label with the offset of the next instruction in segment 0 (R101). -/
def labelTable (off : Nat) : List Line → List (List Char × Nat)
  | [] => []
  | l :: ls => l.labels.map (fun name => (name, off)) ++ labelTable (off + l.size) ls

/-- The number an immediate stands for. -/
def resolve (table : List (List Char × Nat)) : Value → Option Nat
  | .number n => some n
  | .label name =>
    match table.find? (fun e => e.1 == name) with
    | some e => some e.2
    | none => none

/-- The words of a statement; an immediate that does not fit is refused. -/
def wordsOf (table : List (List Char × Nat)) : Stmt → Option (List Word)
  | .code l => some (l.map encode)
  | .li ra v =>
    match resolve table v with
    | some n => if n < Config.immBound then some [encode (.li ra (BitVec.ofNat 32 n))] else none
    | none => none
  | .word v =>
    match resolve table v with
    | some n => if n < 4294967296 then some [BitVec.ofNat 32 n] else none
    | none => none

/-- The words of all lines, in order. -/
def emit (table : List (List Char × Nat)) : List Line → Option (List Word)
  | [] => some []
  | l :: ls =>
    match l.stmt with
    | none => emit table ls
    | some st =>
      match wordsOf table st, emit table ls with
      | some ws, some rest => some (ws ++ rest)
      | _, _ => none

/-- The words of segment 0 that a text stands for (R101, R102), none where it is not the syntax or defines a label twice. -/
def assembleChars (text : List Char) : Option (List Word) :=
  match linesOf (splitChar '\n' text) with
  | some ls =>
    let table := labelTable 0 ls
    if (table.map (·.1)).Nodup then emit table ls else none
  | none => none

/-- The assembler on a string. -/
def assemble (text : String) : Option (List Word) := assembleChars text.toList

end Sys2Proof.Asm
end

