-- ==== Sys2Proof/Tests/Slice0.lean ====
section
/-! SUPPORT. Tests on the spec's own vectors (95_test_vectors.md) and words written out from its encodings, and a witness for the
hypotheses of every statement that has some. -/

namespace Sys2Proof.Tests

open Sys2Proof Sys2Proof.Machine

/-- The state an outcome goes on in. -/
def after : Host.Outcome State Fault Refusal → Option State
  | .next t => some t
  | .fault _ => none
  | .refused _ => none

/-- The start state of 95_test_vectors.md section 2.3: segment 0 a program, segment 1 `[10, 20, 30]`, identifier 2 freed. -/
def vectorMem : Memory where
  slots := [.live (.ofWords [0x10000040, 0x70000000]), .live (.ofWords [10, 20, 30]), .free]
  pool := [2]

/-- That start state with some registers set. -/
def vector (regs : List (Reg × Word)) : State :=
  regs.foldl (fun s p => s.setReg p.1 p.2) { State.reset with mem := vectorMem }

/-- One register after an instruction. -/
def regAfter (i : Instr) (s : State) (r : Reg) : Option Word := (after (exec i s)).map (fun t => t.reg r)

/-- The fault cause after an instruction, 0 when it completed. -/
def causeAfter (i : Instr) (s : State) : Option Nat := (after (exec i s)).map (fun t => t.fault.cause.toNat)

/-! WellFormed: the one check refuses an immediate of 26 bits -/

theorem test_wellFormed_refuses_26_bit_immediate : (Instr.li 0 0x02000000).wellFormed = false := by decide

theorem test_wellFormed_accepts_largest_immediate : (Instr.li 0 0x01FFFFFF).wellFormed = true := by decide

/-- What the check is for: the ill-formed term's word is another instruction's. -/
theorem test_ill_formed_does_not_round_trip : decode (encode (.li 0 0x02000000)) = .ok (.li 1 0) := by decide

/-! Decode: one word for each constructor, bit by bit from 30_encoding.md R91 to R94 -/

theorem test_decode_cmov : decode 0b0000_0000000000000000000_001_010_011 = .ok (.cmov 1 2 3) := by decide
theorem test_decode_load : decode 0b0001_0000000000000000000_101_010_011 = .ok (.load 5 2 3) := by decide
theorem test_decode_store : decode 0b0010_0000000000000000000_010_011_100 = .ok (.store 2 3 4) := by decide
theorem test_decode_add : decode 0b0011_1111111111111111111_001_010_011 = .ok (.add 1 2 3) := by decide
theorem test_decode_mul : decode 0b0100_0000000000000000000_001_010_011 = .ok (.mul 1 2 3) := by decide
theorem test_decode_div : decode 0b0101_0000000000000000000_011_001_010 = .ok (.div 3 1 2) := by decide
theorem test_decode_nand : decode 0b0110_0000000000000000000_101_000_111 = .ok (.nand 5 0 7) := by decide
theorem test_decode_halt : decode 0b0111_1111111111111111111_111_111_111 = .ok .halt := by decide
theorem test_decode_map : decode 0b1000_0000000000000000000_111_010_001 = .ok (.map 2 1) := by decide
theorem test_decode_unmap : decode 0b1001_0000000000000000000_111_101_010 = .ok (.unmap 2) := by decide
theorem test_decode_out : decode 0b1010_0000000000000000000_000_000_101 = .ok (.out 5) := by decide
theorem test_decode_in : decode 0b1011_0000000000000000000_000_000_001 = .ok (.inp 1) := by decide
theorem test_decode_loadp : decode 0b1100_0000000000000000000_001_000_110 = .ok (.loadp 0 6) := by decide
theorem test_decode_li : decode 0b1101_110_1000000000000000111000000 = .ok (.li 6 0x010001C0) := by decide
theorem test_decode_refuses_14 : decode 0b1110_0000000000000000000_000_000_000 = .error (.invalidOpcode 14) := by decide
theorem test_decode_refuses_15 : decode 0xFFFFFFFF = .error (.invalidOpcode 15) := by decide

/-- 95_test_vectors.md 2.1: in `D00001C0` bits [8:6] are immediate bits. -/
theorem test_decode_li_low_field : decode 0xD00001C0 = .ok (.li 0 0x1C0) := by decide

theorem test_tableWord_row : decodeTableWord 32 0xC0000006 = some (.loadp 0 6) := by decide

/-! One step each, with the results of 95_test_vectors.md section 2 -/

theorem test_cmov_condition_read_first : regAfter (.cmov 3 2 3) (vector [(2, 7), (3, 9)]) 3 = some 7 := by decide
theorem test_cmov_zero_keeps : regAfter (.cmov 1 2 3) (vector [(1, 5), (2, 7)]) 1 = some 5 := by decide
theorem test_add_wraps : regAfter (.add 1 2 3) (vector [(2, 0xFFFFFFFF), (3, 1)]) 1 = some 0 := by decide
theorem test_add_same_register : regAfter (.add 1 1 1) (vector [(1, 0x80000000)]) 1 = some 0 := by decide
theorem test_mul_low_half : regAfter (.mul 1 2 3) (vector [(2, 0xFFFFFFFF), (3, 0xFFFFFFFF)]) 1 = some 1 := by decide
theorem test_mul_shift : regAfter (.mul 1 2 3) (vector [(2, 0x01000000), (3, 0x70)]) 1 = some 0x70000000 := by decide
theorem test_div_unsigned : regAfter (.div 1 2 3) (vector [(2, 0x80000000), (3, 0xFFFFFFFF)]) 1 = some 0 := by decide
theorem test_div_by_zero :
    (causeAfter (.div 1 2 3) (vector [(1, 9), (2, 7)]), regAfter (.div 1 2 3) (vector [(1, 9), (2, 7)]) 1) = (some 7, some 9) := by
  decide
/-- 41_move_and_arith.md R154 by hand, and so 0xF0F0FFFF; section 2.2 prints 0xF0FFFFFF for these operands (notes/assumptions/19.md). -/
theorem test_nand_bits : regAfter (.nand 1 2 3) (vector [(2, 0xFFFF0000), (3, 0x0F0F0F0F)]) 1 = some 0xF0F0FFFF := by decide

theorem test_nand_not : regAfter (.nand 1 2 2) (vector [(2, 0x12345678)]) 1 = some 0xEDCBA987 := by decide
theorem test_load_last_word : regAfter (.load 5 2 3) (vector [(2, 1), (3, 2)]) 5 = some 30 := by decide
theorem test_load_existence_before_bounds :
    (causeAfter (.load 5 2 3) (vector [(2, 7), (3, 0xFFFFFFFF)]), causeAfter (.load 5 2 3) (vector [(2, 1), (3, 3)])) =
      (some 3, some 4) := by decide
theorem test_store_middle_word :
    (after (exec (.store 2 3 4) (vector [(2, 1), (3, 1), (4, 99)]))).map (fun t => t.mem.segment? 1) =
      some (some (.ofWords [10, 99, 30])) := by decide
theorem test_store_past_end :
    (after (exec (.store 2 3 4) (vector [(2, 1), (3, 3), (4, 99)]))).map (fun t => (t.fault.cause, t.mem)) =
      some (4, vectorMem) := by decide
theorem test_halt_counts :
    (after (step (State.resetWith [0x70000000]))).map (fun t => (t.status, t.pc, t.icount)) = some (.halted, 1, 1) := by decide
theorem test_map_reuses_freed : regAfter (.map 1 1) (vector [(1, 4)]) 1 = some 2 := by decide
theorem test_map_mints_one_after_reset :
    (after (exec (.map 2 1) (State.reset.setReg 1 4))).map (fun t => (t.reg 2, t.mem.memRead 1 3, t.mem.tableSize)) =
      some (1, .ok 0, 2) := by decide
theorem test_unmap_pushes :
    (after (exec (.unmap 2) (vector [(2, 1)]))).map (fun t => (t.mem.pool, t.mem.isLive 1)) = some ([1, 2], false) := by decide
theorem test_unmap_faults :
    (causeAfter (.unmap 0) (vector []), causeAfter (.unmap 1) (vector [(1, 2)]), causeAfter (.unmap 1) (vector [(1, 3)])) =
      (some 5, some 6, some 6) := by decide
theorem test_out_byte : (after (exec (.out 1) (vector [(1, 255)]))).map (fun t => t.output) = some [0xFF] := by decide
theorem test_out_range :
    (after (exec (.out 1) (vector [(1, 256)]))).map (fun t => (t.fault.cause, t.output)) = some (8, []) := by decide
theorem test_in_byte_is_zero_extended :
    regAfter (.inp 1) { State.reset with input := { items := [.byte 0xFF], closed := false } } 1 = some 0xFF := by decide
theorem test_in_end_of_stream : regAfter (.inp 1) State.reset 1 = some 0xFFFFFFFF := by decide
theorem test_loadp_replaces_segment_0 :
    (after (exec (.loadp 2 1) (vector [(2, 1), (1, 2)]))).map (fun t => (t.pc, t.mem.segment? 0)) =
      some (2, some (.ofWords [10, 20, 30])) := by decide
theorem test_loadp_of_freed : causeAfter (.loadp 2 1) (vector [(2, 2)]) = some 3 := by decide
theorem test_li_not_sign_extended : regAfter (.li 0 0x01FFFFFF) (vector [(0, 5)]) 0 = some 0x01FFFFFF := by decide

/-! The cycle, boot and the assembler -/

/-- 95_test_vectors.md 2.8, the word `E0000000`. -/
theorem test_invalid_opcode_record :
    (after (step (State.resetWith [0xE0000000]))).map (fun t => (t.status, t.fault, t.pc)) =
      some (.faulted, { cause := 2, pc := 0, word := 0xE0000000 }, 0) := by decide

/-- 95_test_vectors.md 2.8, the empty image. -/
theorem test_empty_image_faults :
    (after (step State.reset)).map (fun t => (t.fault, t.icount)) = some ({ cause := 1, pc := 0, word := 0 }, 0) := by decide

/-- 70_reset_and_hazards.md R263: the first byte of a word is its most significant. -/
theorem test_boot_is_big_endian :
    (State.reset.boot [0xD0, 0x00, 0x00, 0x48]).map (fun t => t.mem.fetch 0) = some (.ok 0xD0000048) := by decide

theorem test_boot_refuses_partial_word : State.reset.boot [0xD0, 0x00, 0x00] = none := by decide

theorem test_withFetchWord_runs_the_row : after (step (State.reset.withFetchWord 32 0xD0000048)) =
    after (exec (.li 0 72) (State.resetWith [0xD0000048])) := by decide

/-- 95_test_vectors.md P3, the lines with a label, a decimal and a hexadecimal number. -/
theorem test_assembler_label :
    Asm.assemble "LI r3, loop ; offset\nloop: OUT r2\nADD r1, r1, r5\n.word 0xFFFFFFFF\nAND r1, r2, r3" =
      some [0xD6000001, 0xA0000002, 0x3000004D, 0xFFFFFFFF, 0x60000053, 0x60000049] := by decide

theorem test_assembler_refuses_unknown_label : Asm.assemble "LI r3, loop" = none := by decide

/-! Witnesses: a concrete state and operands that meet the hypotheses of each statement, clause by clause at a boundary -/

/-- The largest immediate. -/
theorem witness_DecodeEncodeRoundTrip : (Instr.li 7 0x01FFFFFF).wellFormed = true := by decide

theorem witness_EncodingFunctionsPlaceTheirFields : (0x01FFFFFF : Word).toNat ≤ 0x01FFFFFF := by decide

/-- Every one of the fifteen clauses, with every field all ones. -/
theorem witness_DecodeReadsItsFields : ∀ n ∈ List.range 16, ∃ w : Word, w.toNat / 2 ^ 28 = n ∧ (7 : Reg).toNat = w.toNat / 2 ^ 6 % 8 ∧
    (7 : Reg).toNat = w.toNat / 2 ^ 3 % 8 ∧ (7 : Reg).toNat = w.toNat % 8 ∧ (7 : Reg).toNat = w.toNat / 2 ^ 25 % 8 ∧
    (0x01FFFFFF : Word).toNat = w.toNat % 2 ^ 25 := by
  intro n hn
  refine ⟨BitVec.ofNat 32 (n * 2 ^ 28 + 0x0FFFFFFF), ?_⟩
  revert n
  decide

theorem witness_InvalidExactlyOpcodes14And15_fetched : (State.resetWith [0xE0000000]).status = .running ∧
    (State.resetWith [0xE0000000]).mem.fetch 0 = .ok 0xE0000000 ∧ (0xE0000000 : Word).toNat / 2 ^ 28 = 14 := by decide

theorem witness_InvalidExactlyOpcodes14And15_ignored : (0xC0000006 : Word) ≠ 0xCFFFFE06 ∧
    (0xC0000006 : Word).toNat / 2 ^ 28 = (0xCFFFFE06 : Word).toNat / 2 ^ 28 ∧ (0xC0000006 : Word).toNat / 2 ^ 28 = 12 ∧
    (0xC0000006 : Word).toNat % 2 ^ 9 = (0xCFFFFE06 : Word).toNat % 2 ^ 9 := by decide

theorem witness_UnusedFieldsAreIgnored :
    ((0x70000000 : Word).toNat / 2 ^ 28 = 7 ∧ (0x7FFFFFFF : Word).toNat / 2 ^ 28 = 7) ∧
    ((0x80000011 : Word).toNat / 2 ^ 28 = 8 ∧ (0x8FFFFFD1 : Word).toNat / 2 ^ 28 = 8 ∧
      (0x80000011 : Word).toNat % 2 ^ 6 = (0x8FFFFFD1 : Word).toNat % 2 ^ 6) ∧
    ((0xC0000006 : Word).toNat / 2 ^ 28 = 12 ∧ (0xCFFFFFC6 : Word).toNat / 2 ^ 28 = 12 ∧
      (0xC0000006 : Word).toNat % 2 ^ 6 = (0xCFFFFFC6 : Word).toNat % 2 ^ 6) ∧
    ((0x90000002 : Word).toNat / 2 ^ 28 = 9 ∧ (0x9FFFFFFA : Word).toNat / 2 ^ 28 = 9 ∧
      (0x90000002 : Word).toNat % 2 ^ 3 = (0x9FFFFFFA : Word).toNat % 2 ^ 3) ∧
    ((0xA0000002 : Word).toNat / 2 ^ 28 = 10 ∧ (0xAFFFFFFA : Word).toNat / 2 ^ 28 = 10 ∧
      (0xA0000002 : Word).toNat % 2 ^ 3 = (0xAFFFFFFA : Word).toNat % 2 ^ 3) ∧
    ((0xB0000002 : Word).toNat / 2 ^ 28 = 11 ∧ (0xBFFFFFFA : Word).toNat / 2 ^ 28 = 11 ∧
      (0xB0000002 : Word).toNat % 2 ^ 3 = (0xBFFFFFFA : Word).toNat % 2 ^ 3) := by decide

theorem witness_EncodeKeepsExactlyTheUsedBits : decode 0x8FFFFFD1 = .ok (.map 2 1) := by decide

theorem witness_DecoderOutputsDescribeTheInstruction :
    (decoderOutputs 0xDE000000).valid = true ∧ (decoderOutputs 0xCFFFFFC6).valid = true := by decide

theorem witness_StepRunsTheDecodedInstruction : (State.resetWith [0xD0000048]).status = .running ∧
    (State.resetWith [0xD0000048]).mem.fetch 0 = .ok 0xD0000048 ∧ decode 0xD0000048 = .ok (.li 0 72) := by decide

/-- `pc` equal to the length, and one below it. -/
theorem witness_FetchOutOfBoundsFaults :
    (((vector []).setPc 2).mem.segment? 0 = some (.ofWords [0x10000040, 0x70000000]) ∧ ((vector []).setPc 2).status = .running ∧
      (Segment.ofWords [0x10000040, 0x70000000]).len ≤ ((vector []).setPc 2).pc.toNat) ∧
    ((vector []).setPc 1).mem.segment? 0 = some (.ofWords [0x10000040, 0x70000000]) ∧
      ((vector []).setPc 1).pc.toNat < (Segment.ofWords [0x10000040, 0x70000000]).len := by decide

theorem witness_InvalidOpcodeFaults : (State.resetWith [0xFFFFFFFF]).status = .running ∧
    (State.resetWith [0xFFFFFFFF]).mem.fetch 0 = .ok 0xFFFFFFFF ∧ decode 0xFFFFFFFF = .error (.invalidOpcode 15) := by decide

theorem witness_PcWrapIsNeverSeen : ((vector []).setPc 0xFFFFFFFF).mem.wf = true ∧
    (after (step ((vector []).setPc 0xFFFFFFFF))).isSome = true := by decide

theorem witness_HaltedAndFaultedAreTerminal :
    (State.reset.setStatus .halted).status ≠ .running ∧ (State.reset.setStatus .faulted).status ≠ .running := by decide

/-- An IN at `pc` whose answer the host has not given. -/
def holding : State := { State.resetWith [0xB0000001] with input := { items := [], closed := false } }

theorem witness_StepExactlyWhenRunningAndNotHolding : holding.status = .running ∧ Holds holding :=
  ⟨rfl, 0xB0000001, 1, by decide, by decide, by decide⟩

theorem witness_AnswerEndsTheWait : step holding = .fault .inputHold ∧ holding.mem.fetch holding.pc = .ok 0xB0000001 ∧
    decode 0xB0000001 = .ok (.inp 1) ∧ holding.inv = true := ⟨rfl, by decide, by decide, by decide⟩

/-- Divisors 1 and 0. -/
theorem witness_DivResult : (vector [(3, 1)]).reg 3 ≠ 0 ∧ (vector []).reg 3 = 0 := by decide

/-- A freed identifier; the first offset past the end; the last offset. -/
theorem witness_LoadResult : (vector [(2, 2)]).mem.segment? ((vector [(2, 2)]).reg 2) = none ∧
    ((vector [(2, 1), (3, 3)]).mem.segment? ((vector [(2, 1), (3, 3)]).reg 2) = some (.ofWords [10, 20, 30]) ∧
      (Segment.ofWords [10, 20, 30]).len ≤ ((vector [(2, 1), (3, 3)]).reg 3).toNat) ∧
    (vector [(2, 1), (3, 2)]).mem.segment? ((vector [(2, 1), (3, 2)]).reg 2) = some (.ofWords [10, 20, 30]) ∧
      ((vector [(2, 1), (3, 2)]).reg 3).toNat < (Segment.ofWords [10, 20, 30]).len := by decide

/-- A freed identifier; the first offset past the end; the last offset. -/
theorem witness_StoreResult : (vector []).mem.wf = true ∧ (vector [(2, 2)]).mem.segment? ((vector [(2, 2)]).reg 2) = none ∧
    ((vector [(2, 1), (3, 3)]).mem.segment? ((vector [(2, 1), (3, 3)]).reg 2) = some (.ofWords [10, 20, 30]) ∧
      (Segment.ofWords [10, 20, 30]).len ≤ ((vector [(2, 1), (3, 3)]).reg 3).toNat) ∧
    (vector [(2, 1), (3, 2)]).mem.segment? ((vector [(2, 1), (3, 2)]).reg 2) = some (.ofWords [10, 20, 30]) ∧
      ((vector [(2, 1), (3, 2)]).reg 3).toNat < (Segment.ofWords [10, 20, 30]).len := by decide

theorem witness_HaltResult : (0x7FFFFFFF : Word).toNat / 2 ^ 28 = 7 ∧
    (after (step (State.resetWith [0x7FFFFFFF]))).map (fun t => t.status) = some .halted := by decide

/-- A refused size; a reused identifier; a minted one, the 2^32nd slot apart. -/
theorem witness_MapResult : { vector [(1, 4)] with refusedSizes := [4] }.mem.wf = true ∧
    { vector [(1, 4)] with refusedSizes := [4] }.allocOracle 4 = false ∧
    ((vector [(1, 4)]).allocOracle 4 = true ∧ (vector [(1, 4)]).mem.pool = 2 :: []) ∧
    (State.reset.mem.wf = true ∧ State.reset.allocOracle 0 = true ∧ State.reset.mem.pool = [] ∧
      State.reset.mem.tableSize < 4294967296) := by decide

/-- A table of `n` live segments of no words. -/
def fullTable (n : Nat) : Memory := { slots := List.replicate n (.live (.zeros 0)), pool := [] }

theorem fullTable_wf {n : Nat} (h0 : 0 < n) (h : n ≤ Config.maxSlots) : (fullTable n).wf = true := by
  rw [Memory.wf_iff]
  simp [fullTable, Memory.segment?, Memory.tableSize, List.getElem?_replicate, h0, h, Slot.wf, Segment.zeros, Segment.wf]

/-- The full table of 2^32 slots, the other reason for which MAP fails. -/
theorem witness_MapResult_full : (fullTable (2 ^ 32)).wf = true ∧ (fullTable (2 ^ 32)).pool = [] ∧
    (fullTable (2 ^ 32)).tableSize = 2 ^ 32 :=
  ⟨fullTable_wf (Nat.two_pow_pos 32) (Nat.le_refl _), rfl, List.length_replicate⟩

/-- Segment 0; a freed identifier; a live one. -/
theorem witness_UnmapResult : (vector []).reg 1 = 0 ∧
    ((vector [(1, 2)]).reg 1 ≠ 0 ∧ (vector [(1, 2)]).mem.segment? ((vector [(1, 2)]).reg 1) = none) ∧
    (vector [(1, 1)]).reg 1 ≠ 0 ∧
      (vector [(1, 1)]).mem.segment? ((vector [(1, 1)]).reg 1) = some (.ofWords [10, 20, 30]) := by decide

/-- 256 and 255. -/
theorem witness_OutResult : 255 < ((vector [(1, 256)]).reg 1).toNat ∧ ((vector [(1, 255)]).reg 1).toNat ≤ 255 := by decide

/-- A byte; an end-of-stream; past the items of a closed source; past those of an open one. -/
theorem witness_InResult :
    { State.reset with input := { items := [.byte 0xFF], closed := false } }.input.items[0]? = some (.byte 0xFF) ∧
    { State.reset with input := { items := [.endOfStream], closed := false } }.input.items[0]? = some .endOfStream ∧
    (State.reset.input.items[State.reset.inputPos]? = none ∧ State.reset.input.closed = true) ∧
    holding.input.items[holding.inputPos]? = none ∧ holding.input.closed = false := by decide

/-- A freed identifier; a live one with a target past its end; segment 0 itself. -/
theorem witness_LoadpResult : (vector []).mem.wf = true ∧
    (vector [(2, 2)]).mem.segment? ((vector [(2, 2)]).reg 2) = none ∧
    ((vector [(2, 1), (1, 3)]).mem.segment? ((vector [(2, 1), (1, 3)]).reg 2) = some (.ofWords [10, 20, 30]) ∧
      (vector [(2, 1), (1, 3)]).status = .running ∧
      (Segment.ofWords [10, 20, 30]).len ≤ ((vector [(2, 1), (1, 3)]).reg 1).toNat) ∧
    (vector []).reg 2 = 0 := by decide

theorem witness_LiResult : (0x01FFFFFF : Word).toNat ≤ 0x01FFFFFF ∧ (0xDFFFFFFF : Word).toNat / 2 ^ 28 = 13 := by decide

theorem witness_FaultsArePrecise : (after (step State.reset)).map (fun t => t.status) = some .faulted := by decide

/-- A cycle for each cause of 60_exceptions.md R222, by the word it fetches. -/
theorem witness_FaultCausesAreTheTables :
    ([(0xE0000000, []), (0x10000153, [(2, 2)]), (0x10000153, [(2, 1), (3, 3)]), (0x2000009C, [(2, 2)]), (0x2000009C, [(2, 1), (3, 3)]),
      (0x50000053, []), (0x90000000, []), (0x90000001, [(1, 2)]), (0xA0000001, [(1, 256)]), (0xC0000011, [(2, 2)])].all
        fun p => ((vector p.2).withFetchWord 32 p.1).mem.wf &&
          (after (step ((vector p.2).withFetchWord 32 p.1))).map (fun t => t.status) == some .faulted) = true ∧
    State.reset.mem.wf = true ∧ (after (step State.reset)).map (fun t => t.status) = some .faulted ∧
    (after (step ({ vector [] with refusedSizes := [0] }.withFetchWord 32 0x80000011))).map (fun t => t.status) = some .faulted := by
  decide

theorem witness_EveryStepKeepsTheInvariant : (State.resetWith [0xD0000048]).inv = true ∧
    (after (step (State.resetWith [0xD0000048]))).isSome = true := by decide

theorem witness_ResetWithAnyImageEstablishesTheInvariant : ([0x70000000] : List Word).length ≤ 2 ^ 32 - 1 := by decide

theorem witness_OnlyTheNamedRegisterIsWritten : (after (exec (.add 1 2 3) (vector []))).isSome = true ∧
    writesOf (.add 1 2 3) ≠ some 2 ∧ (vector []).status = .running ∧
    (after (exec (.div 1 2 3) (vector []))).map (fun t => t.status) = some .faulted := by decide

/-- Two states that differ in r7 only, which ADD r1, r2, r3 does not read. -/
theorem witness_OnlyTheReadRegistersMatter : vector [(7, 1)] = { vector [] with regs := (vector [(7, 1)]).regs } ∧
    (∀ r ∈ readsOf (.add 1 2 3), (vector [(7, 1)]).reg r = (vector []).reg r) ∧
    (after (exec (.add 1 2 3) (vector []))).isSome = true ∧ exec (.inp 1) holding = .fault .inputHold := by
  refine ⟨by decide, ?_, by decide, rfl⟩
  intro r hr
  simp only [readsOf, List.mem_cons, List.not_mem_nil, or_false] at hr
  obtain rfl | rfl := hr <;> decide

theorem witness_IcountCountsRetirements :
    (after (step State.reset)).map (fun t => t.status) = some .faulted ∧
    (after (step (State.resetWith [0x70000000]))).map (fun t => t.status) = some .halted := by decide

/-- A step that jumps and one that does not. -/
theorem witness_OnlyLoadpJumps :
    (after (step (State.resetWith [0xC0000006]))).map (fun t => t.status) = some .running ∧
    (after (step (State.resetWith [0xD0000048]))).map (fun t => t.status) = some .running := by decide

theorem witness_StreamsChangeOnlyByOutAndIn : (after (exec (.out 1) (vector []))).map (fun t => t.output) = some [0] ∧
    (after (exec (.inp 1) (vector []))).map (fun t => t.inputPos) = some 1 := by decide

/-- An instruction with a data request and one without. -/
theorem witness_MemoryChangesOnlyThroughTheDataPort : (after (exec (.map 2 1) (vector []))).isSome = true ∧
    (requestOf (.map 2 1) (vector [])).isSome = true ∧ (after (exec (.li 1 1) (vector []))).isSome = true := by decide

theorem witness_OneFetchAndAtMostOneOtherRequest : State.reset.status = .running ∧
    cycleRequests (vector []) = [.fetch 0, .data (.memRead 0 0)] := by decide

theorem witness_LoadReadsThePrecedingStore : (vector [(2, 1), (3, 2), (4, 99)]).mem.wf = true ∧
    (vector [(2, 1), (3, 2), (4, 99)]).status = .running ∧
    (after (exec (.store 2 3 4) (vector [(2, 1), (3, 2), (4, 99)]))).map (fun t => t.status) = some .running := by decide

/-- A STORE over the next word of segment 0. -/
theorem witness_StoreIntoProgramIsSeenByTheNextFetch : (vector [(3, 1), (4, 0xD0000048)]).mem.wf = true ∧
    (vector [(3, 1), (4, 0xD0000048)]).status = .running ∧ (vector [(3, 1), (4, 0xD0000048)]).reg 2 = 0 ∧
    (after (exec (.store 2 3 4) (vector [(3, 1), (4, 0xD0000048)]))).map (fun t => t.status) = some .running ∧
    ((vector [(3, 1), (4, 0xD0000048)]).reg 3).toNat = ((vector [(3, 1), (4, 0xD0000048)]).pc.toNat + 1) % 4294967296 ∧
    decode ((vector [(3, 1), (4, 0xD0000048)]).reg 4) = .ok (.li 0 72) := by decide

/-- LOADP of segment 1, then a STORE into segment 0 and one into segment 1. -/
theorem witness_LoadedProgramDoesNotAlias : (vector [(2, 1)]).mem.wf = true ∧ (vector [(2, 1)]).status = .running ∧
    (vector [(2, 1)]).reg 2 ≠ 0 ∧
    ((after (exec (.loadp 2 1) (vector [(2, 1)]))).map fun t =>
      (t.status, t.reg 0, t.reg 2, (after (exec (.store 0 3 2) t)).isSome, (after (exec (.store 2 3 2) t)).isSome)) =
      some (.running, 0, 1, true, true) := by decide

theorem witness_UnmapThenMapReusesTheIdentifier : (vector [(2, 1), (1, 4)]).mem.wf = true ∧
    (vector [(2, 1), (1, 4)]).status = .running ∧
    (after (exec (.unmap 2) (vector [(2, 1), (1, 4)]))).map (fun t => t.status) = some .running ∧
    (vector [(2, 1), (1, 4)]).allocOracle ((vector [(2, 1), (1, 4)]).reg 1) = true := by decide

theorem witness_SuccessiveMapsMintIncreasingIdentifiers : State.reset.mem.wf = true ∧ State.reset.mem.pool = [] ∧
    State.reset.mem.tableSize + 1 < 4294967296 ∧ ∀ size, State.reset.allocOracle size = true :=
  ⟨by decide, rfl, by decide, fun _ => rfl⟩

theorem witness_BootLoadsTheImageBigEndian : (State.reset.boot [0xD0, 0x00, 0x00, 0x48]).isSome = true ∧
    ([0xD0, 0x00, 0x00, 0x48] : List Byte)[4 * 0 + 3]? = some 0x48 := by decide

theorem witness_RunEndsInSuccessOrRecordedFault : (State.resetWith [0x70000000]).inv = true ∧
    ((after (step (State.resetWith [0x70000000]))).bind fun t => t.runEnd) = some (.success 1) ∧ State.reset.inv = true ∧
    ((after (step State.reset)).bind fun t => t.runEnd) = some (.abnormal { cause := 1, pc := 0, word := 0 }) := by decide

theorem witness_PseudoInstructionsMeanTheirNames : (vector []).mem.wf = true ∧ (vector []).reg 0 = 0 := by decide

/-- A buffer that holds the next word, and steps of the machine that go on and that hold. -/
theorem witness_PrefetchingIsIndistinguishable : (vector []).mem.wf = true ∧ (vector []).mem.fetch 1 = .ok 0x70000000 ∧
    (after (step (vector []))).isSome = true ∧ holding.mem.wf = true ∧ step holding = .fault .inputHold :=
  ⟨by decide, by decide, by decide, by decide, rfl⟩

end Sys2Proof.Tests
end

section
/-! The state family of 10_state.md: what every instruction and every step does to `pc`, `icount`, the run status, the
streams and memory; which registers can influence an instruction; and the requests and the status port of a cycle. -/

namespace Sys2Proof.Machine

/-! Memory after the data-port request of an instruction (10_state.md R36, R38) -/

/-- The memory manager's state after the data-port request that `i` issues in `s`, and memory as it is when `i` issues none. -/
def memAfterRequest (i : Instr) (s : State) : Memory :=
  match requestOf i s with
  | some (.data r) => (s.serve r).2
  | _ => s.mem

theorem memAfterRequest_load (ra rb rc : Reg) (s : State) : memAfterRequest (.load ra rb rc) s = s.mem := by
  simp only [memAfterRequest, requestOf, State.serve]
  split <;> rfl

theorem memAfterRequest_store (ra rb rc : Reg) (s : State) :
    memAfterRequest (.store ra rb rc) s = (s.mem.memWrite (s.reg ra) (s.reg rb) (s.reg rc)).toOption.getD s.mem := by
  simp only [memAfterRequest, requestOf, State.serve]
  split <;> rename_i e <;> rw [e] <;> rfl

theorem memAfterRequest_map (rb rc : Reg) (s : State) :
    memAfterRequest (.map rb rc) s =
      ((s.mem.segAlloc (s.allocOracle (s.reg rc)) (s.reg rc)).map Prod.snd).toOption.getD s.mem := by
  simp only [memAfterRequest, requestOf, State.serve]
  split <;> rename_i e <;> rw [e] <;> rfl

theorem memAfterRequest_unmap (rc : Reg) (s : State) :
    memAfterRequest (.unmap rc) s = (s.mem.segFree (s.reg rc)).toOption.getD s.mem := by
  simp only [memAfterRequest, requestOf, State.serve]
  split <;> rename_i e <;> rw [e] <;> rfl

theorem memAfterRequest_loadp (rb rc : Reg) (s : State) :
    memAfterRequest (.loadp rb rc) s = (s.mem.segLoadProgram (s.reg rb)).toOption.getD s.mem := by
  simp only [memAfterRequest, requestOf, State.serve]
  split <;> rename_i e <;> rw [e] <;> rfl

theorem memAfterRequest_out (rc : Reg) (s : State) : memAfterRequest (.out rc) s = s.mem := by
  by_cases h : (s.reg rc).toNat > 255 <;> simp [memAfterRequest, requestOf, h]

/-! What an instruction that answers a next state has done -/

/-- `pc` after `i` completes: LOADP's target, else the next offset (10_state.md R27, R28). -/
def pcAfter (i : Instr) (s : State) : Word :=
  match i with
  | .loadp _ rc => s.reg rc
  | _ => s.pc + 1#32

/-- The run status after `i` completes: only HALT sets it (43_halt_and_load_program.md R170). -/
def statusAfter (i : Instr) (s : State) : Status :=
  match i with
  | .halt => .halted
  | _ => s.status

/-- The output trace after `i` completes (10_state.md R34). -/
def outputAfter (i : Instr) (s : State) : List Byte :=
  match i with
  | .out rc => s.output ++ [(s.reg rc).setWidth 8]
  | _ => s.output

/-- The input position after `i` completes (10_state.md R35). -/
def inputPosAfter (i : Instr) (s : State) : Nat :=
  match i with
  | .inp _ => s.inputPos + 1
  | _ => s.inputPos

/-- What `i` leaves in `t` besides the registers when it completes from `s`. -/
structure Completion (i : Instr) (s t : State) : Prop where
  icount : t.icount = s.icount + 1#64
  pc : t.pc = pcAfter i s
  status : t.status = statusAfter i s
  output : t.output = outputAfter i s
  inputPos : t.inputPos = inputPosAfter i s
  mem : t.mem = memAfterRequest i s

/-- An instruction that answers a next state took a fault, and then its request changed no memory, or it completed. -/
theorem exec_next_cases {i : Instr} {s t : State} (h : exec i s = .next t) :
    (∃ code, t = s.faultEntry code ∧ memAfterRequest i s = s.mem) ∨ Completion i s t := by
  cases i with
  | cmov ra rb rc =>
    obtain ⟨-, e⟩ | ⟨-, e⟩ := execCmov_cases ra rb rc s <;> cases e.symm.trans h <;>
      exact .inr ⟨rfl, rfl, rfl, rfl, rfl, rfl⟩
  | load ra rb rc =>
    obtain ⟨code, -, e⟩ | ⟨w, -, e⟩ := execLoad_cases ra rb rc s <;> cases e.symm.trans h
    · exact .inl ⟨code, rfl, memAfterRequest_load ra rb rc s⟩
    · exact .inr ⟨rfl, rfl, rfl, rfl, rfl, (memAfterRequest_load ra rb rc s).symm⟩
  | store ra rb rc =>
    have hm := memAfterRequest_store ra rb rc s
    obtain ⟨code, he, e⟩ | ⟨m, he, e⟩ := execStore_cases ra rb rc s <;> cases e.symm.trans h <;> rw [he] at hm
    · exact .inl ⟨code, rfl, hm⟩
    · exact .inr ⟨rfl, rfl, rfl, rfl, rfl, hm.symm⟩
  | add ra rb rc | mul ra rb rc | nand ra rb rc | halt | li ra imm =>
    cases h
    exact .inr ⟨rfl, rfl, rfl, rfl, rfl, rfl⟩
  | div ra rb rc =>
    obtain ⟨-, e⟩ | ⟨-, q, -, e⟩ := execDiv_cases ra rb rc s <;> cases e.symm.trans h
    · exact .inl ⟨_, rfl, rfl⟩
    · exact .inr ⟨rfl, rfl, rfl, rfl, rfl, rfl⟩
  | map rb rc =>
    have hm := memAfterRequest_map rb rc s
    obtain ⟨code, he, e⟩ | ⟨id, m, he, e⟩ := execMap_cases rb rc s <;> cases e.symm.trans h <;> rw [he] at hm
    · exact .inl ⟨code, rfl, hm⟩
    · exact .inr ⟨rfl, rfl, rfl, rfl, rfl, hm.symm⟩
  | unmap rc =>
    have hm := memAfterRequest_unmap rc s
    obtain ⟨code, he, e⟩ | ⟨m, he, e⟩ := execUnmap_cases rc s <;> cases e.symm.trans h <;> rw [he] at hm
    · exact .inl ⟨code, rfl, hm⟩
    · exact .inr ⟨rfl, rfl, rfl, rfl, rfl, hm.symm⟩
  | out rc =>
    obtain ⟨-, e⟩ | ⟨-, e⟩ := execOut_cases rc s <;> cases e.symm.trans h
    · exact .inl ⟨_, rfl, memAfterRequest_out rc s⟩
    · exact .inr ⟨rfl, rfl, rfl, rfl, rfl, (memAfterRequest_out rc s).symm⟩
  | inp rc =>
    obtain ⟨-, e⟩ | ⟨item, -, e⟩ := execIn_cases rc s <;> cases e.symm.trans h
    exact .inr ⟨rfl, rfl, rfl, rfl, rfl, rfl⟩
  | loadp rb rc =>
    have hm := memAfterRequest_loadp rb rc s
    obtain ⟨code, he, e⟩ | ⟨m, he, e⟩ := execLoadp_cases rb rc s <;> cases e.symm.trans h <;> rw [he] at hm
    · exact .inl ⟨code, rfl, hm⟩
    · exact .inr ⟨rfl, rfl, rfl, rfl, rfl, hm.symm⟩

/-- A step takes a fault, or fetches and decodes an instruction that completes. -/
theorem step_next_cases {s t : State} (h : step s = .next t) :
    (∃ code, t = s.faultEntry code) ∨
    (∃ w i, s.mem.fetch s.pc = .ok w ∧ decode w = .ok i ∧ Completion i s t) := by
  rw [step_eq_of_running (running_of_step_next h)] at h
  obtain ⟨code, -, e⟩ | ⟨w, err, -, -, e⟩ | ⟨w, i, hf, hd, e⟩ := runCycle_cases s <;> rw [e] at h
  · cases h
    exact .inl ⟨code, rfl⟩
  · cases h
    exact .inl ⟨_, rfl⟩
  · obtain ⟨code, ht, -⟩ | hc := exec_next_cases h
    · exact .inl ⟨code, ht⟩
    · exact .inr ⟨w, i, hf, hd, hc⟩

theorem statusAfter_ne_faulted (i : Instr) {s : State} (h : s.status = .running) : statusAfter i s ≠ .faulted := by
  cases i <;> simp [statusAfter, h]

theorem Completion.counted {i : Instr} {s t : State} (h : Completion i s t) : Counted s t := by
  simp [Counted, h.icount, BitVec.toNat_add]

theorem nextInSequence_of_pc_eq {s t : State} (h : t.pc = s.pc + 1#32) : NextInSequence s t := by
  simp [NextInSequence, h, BitVec.toNat_add]

/-- Settles O37: a step that faults is fault entry, and an instruction that completes is counted. -/
theorem icountCountsRetirements : Obligations.IcountCountsRetirements := by
  intro s t h
  obtain ⟨code, rfl⟩ | ⟨w, i, -, -, hc⟩ := step_next_cases h
  · exact ⟨fun _ => rfl, fun hne => absurd rfl hne⟩
  · have hne : t.status ≠ .faulted := hc.status ▸ statusAfter_ne_faulted i (running_of_step_next h)
    exact ⟨fun hf => absurd hf hne, fun _ => hc.counted⟩

/-- Settles O38: the one completion whose `pc` is not the next offset is LOADP's. -/
theorem onlyLoadpJumps : Obligations.OnlyLoadpJumps := by
  intro s t h hne
  obtain ⟨code, rfl⟩ | ⟨w, i, hf, hd, hc⟩ := step_next_cases h
  · exact absurd rfl hne
  · refine ⟨w, i, hf, hd, ?_⟩
    have hpc := hc.pc
    cases i with
    | loadp rb rc => exact hpc
    | _ => exact nextInSequence_of_pc_eq hpc

/-- Settles O39: fault entry keeps both streams, and of the completions only OUT's and IN's change one. -/
theorem streamsChangeOnlyByOutAndIn : Obligations.StreamsChangeOnlyByOutAndIn := by
  intro i s t h
  obtain ⟨code, rfl, -⟩ | hc := exec_next_cases h
  · exact ⟨.inl rfl, .inl rfl⟩
  · have ho := hc.output
    have hi := hc.inputPos
    cases i with
    | out rc => exact ⟨.inr ⟨rc, _, rfl, ho⟩, .inl hi⟩
    | inp rc => exact ⟨.inl ho, .inr ⟨rc, rfl, hi⟩⟩
    | _ => exact ⟨.inl ho, .inl hi⟩

/-- Settles O40: an instruction that faults has had a request that changed nothing, or none. -/
theorem memoryChangesOnlyThroughTheDataPort : Obligations.MemoryChangesOnlyThroughTheDataPort := by
  intro i s t h
  change t.mem = memAfterRequest i s
  obtain ⟨code, rfl, hm⟩ | hc := exec_next_cases h
  · exact hm.symm
  · exact hc.mem

/-! The last offset is past every segment (20_memory.md R51) -/

theorem Memory.fetch_last_offset {m : Memory} (h : m.wf = true) : m.fetch 0xFFFFFFFF = .error .fetchOutOfBounds := by
  obtain ⟨-, e⟩ | ⟨g, -, -, e⟩ | ⟨g, hg, hlt, -⟩ := m.fetch_cases 0xFFFFFFFF
  · exact e
  · exact e
  · have hle : g.len ≤ 4294967295 := Memory.len_le h hg
    have hpc : (0xFFFFFFFF : Word).toNat = 4294967295 := rfl
    omega

/-- Settles O12: no segment holds offset 0xFFFFFFFF, so the fetch there faults. -/
theorem pcWrapIsNeverSeen : Obligations.PcWrapIsNeverSeen := by
  intro s t hwf h hpc
  have hf : s.mem.fetch s.pc = .error .fetchOutOfBounds := hpc ▸ Memory.fetch_last_offset hwf
  rw [step_eq_of_running (running_of_step_next h), runCycle, hf] at h
  cases h
  exact faultTaken_faultEntry s .fetchOutOfBounds

/-! Non-interference of the registers an instruction does not read (10_state.md R24, 40_dispatch.md R126) -/

/-- The state with another register file. -/
def State.withRegs (s : State) (regs : Vector Word 8) : State := { s with regs := regs }

@[simp] theorem State.regs_withRegs (s : State) (regs : Vector Word 8) : (s.withRegs regs).regs = regs := rfl
@[simp] theorem State.mem_withRegs (s : State) (regs : Vector Word 8) : (s.withRegs regs).mem = s.mem := rfl
@[simp] theorem State.allocOracle_withRegs (s : State) (regs : Vector Word 8) (size : Word) :
    (s.withRegs regs).allocOracle size = s.allocOracle size := rfl
@[simp] theorem State.inputAnswer_withRegs (s : State) (regs : Vector Word 8) :
    (s.withRegs regs).inputAnswer = s.inputAnswer := rfl

/-- A change of state that neither reads nor writes the registers. -/
def IgnoresRegs (f : State → State) : Prop := ∀ s regs, f (s.withRegs regs) = (f s).withRegs regs

theorem IgnoresRegs.regs_eq {f : State → State} (hf : IgnoresRegs f) (s : State) : (f s).regs = s.regs := by
  have h : f s = (f s).withRegs s.regs := hf s s.regs
  rw [h, State.regs_withRegs]

theorem IgnoresRegs.reg_eq {f : State → State} (hf : IgnoresRegs f) (s : State) (r : Reg) : (f s).reg r = s.reg r := by
  simp only [State.reg, hf.regs_eq]

/-- From `s` to `t` and from `s'` to `t'` the same happened: `t` and `t'` agree but for registers, and each register has the
same value in both or has kept its own. -/
def SameUpdate (s s' t t' : State) : Prop :=
  t' = t.withRegs t'.regs ∧ ∀ r, t'.reg r = t.reg r ∨ (t.reg r = s.reg r ∧ t'.reg r = s'.reg r)

theorem sameUpdate_refl (s : State) (regs : Vector Word 8) : SameUpdate s (s.withRegs regs) s (s.withRegs regs) :=
  ⟨rfl, fun _ => .inr ⟨rfl, rfl⟩⟩

theorem SameUpdate.map {s s' t t' : State} (h : SameUpdate s s' t t') {f : State → State} (hf : IgnoresRegs f) :
    SameUpdate s s' (f t) (f t') := by
  obtain ⟨he, hr⟩ := h
  refine ⟨?_, fun r => ?_⟩
  · calc f t' = f (t.withRegs t'.regs) := congrArg f he
      _ = (f t).withRegs (f t').regs := by rw [hf, hf.regs_eq]
  · simpa only [hf.reg_eq] using hr r

theorem SameUpdate.setReg {s s' t t' : State} (h : SameUpdate s s' t t') (d : Reg) (v : Word) :
    SameUpdate s s' (t.setReg d v) (t'.setReg d v) := by
  obtain ⟨he, hr⟩ := h
  refine ⟨congrArg (State.setReg · d v) he, fun r => ?_⟩
  by_cases hd : r = d
  · subst hd
    exact .inl (by simp)
  · simpa [hd] using hr r

/-- Two outcomes of an instruction, one from `s` and one from `s'`: both hold, or both are the same update. -/
inductive SameOutcome (s s' : State) : Host.Outcome State Fault Refusal → Host.Outcome State Fault Refusal → Prop where
  | next {t t' : State} : SameUpdate s s' t t' → SameOutcome s s' (.next t) (.next t')
  | fault (f : Fault) : SameOutcome s s' (.fault f) (.fault f)

theorem SameOutcome.of_next {s s' t : State} {o o' : Host.Outcome State Fault Refusal} (h : SameOutcome s s' o o')
    (ho : o = .next t) : ∃ t', o' = .next t' ∧ SameUpdate s s' t t' := by
  cases h with
  | next hu => cases ho; exact ⟨_, rfl, hu⟩
  | fault => cases ho

theorem SameOutcome.of_fault {s s' : State} {f : Fault} {o o' : Host.Outcome State Fault Refusal}
    (h : SameOutcome s s' o o') (ho : o = .fault f) : o' = .fault f := by
  cases h with
  | next => cases ho
  | fault => exact ho

section
variable (s : State) (regs : Vector Word 8)

theorem sameOutcome_raise (code : FaultCode) :
    SameOutcome s (s.withRegs regs) (raise s code) (raise (s.withRegs regs) code) :=
  .next ((sameUpdate_refl s regs).map (f := (·.faultEntry code)) fun _ _ => rfl)

theorem sameOutcome_complete {f : State → State} (hf : IgnoresRegs f) :
    SameOutcome s (s.withRegs regs) (complete (f s)) (complete (f (s.withRegs regs))) :=
  .next (((sameUpdate_refl s regs).map hf).map (f := State.retire) fun _ _ => rfl)

theorem sameOutcome_writeBack {f : State → State} (hf : IgnoresRegs f) (d : Reg) (v : Word) :
    SameOutcome s (s.withRegs regs) (writeBack (f s) d v) (writeBack (f (s.withRegs regs)) d v) :=
  have hu := ((sameUpdate_refl s regs).map hf).map (f := State.advance) fun _ _ => rfl
  .next ((hu.setReg d v).map (f := State.retire) fun _ _ => rfl)

end

/-- Each operand, each answer of the memory manager, of the oracle and of the input is the same with the other registers. -/
theorem exec_sameOutcome (i : Instr) (s : State) (regs : Vector Word 8)
    (hr : ∀ r ∈ readsOf i, (s.withRegs regs).reg r = s.reg r) :
    SameOutcome s (s.withRegs regs) (exec i s) (exec i (s.withRegs regs)) := by
  have plain : IgnoresRegs id := fun _ _ => rfl
  cases i with
  | cmov ra rb rc =>
    simp only [exec_cmov, execCmov, hr rb (by simp [readsOf]), hr rc (by simp [readsOf])]
    split
    · exact sameOutcome_writeBack s regs plain _ _
    · exact sameOutcome_complete s regs (f := State.advance) fun _ _ => rfl
  | load ra rb rc =>
    simp only [exec_load, execLoad, State.mem_withRegs, hr rb (by simp [readsOf]), hr rc (by simp [readsOf])]
    split
    · exact sameOutcome_writeBack s regs plain _ _
    · exact sameOutcome_raise s regs _
  | store ra rb rc =>
    simp only [exec_store, execStore, State.mem_withRegs, hr ra (by simp [readsOf]), hr rb (by simp [readsOf]),
      hr rc (by simp [readsOf])]
    split
    · exact sameOutcome_complete s regs (f := (·.advance.setMem _)) fun _ _ => rfl
    · exact sameOutcome_raise s regs _
  | add ra rb rc =>
    simp only [exec_add, execAdd, hr rb (by simp [readsOf]), hr rc (by simp [readsOf])]
    exact sameOutcome_writeBack s regs plain _ _
  | mul ra rb rc =>
    simp only [exec_mul, execMul, hr rb (by simp [readsOf]), hr rc (by simp [readsOf])]
    exact sameOutcome_writeBack s regs plain _ _
  | div ra rb rc =>
    simp only [exec_div, execDiv, hr rb (by simp [readsOf]), hr rc (by simp [readsOf])]
    split
    · exact sameOutcome_writeBack s regs plain _ _
    · exact sameOutcome_raise s regs _
  | nand ra rb rc =>
    simp only [exec_nand, execNand, hr rb (by simp [readsOf]), hr rc (by simp [readsOf])]
    exact sameOutcome_writeBack s regs plain _ _
  | halt => exact sameOutcome_complete s regs (f := (·.advance.setStatus .halted)) fun _ _ => rfl
  | map rb rc =>
    simp only [exec_map, execMap, State.mem_withRegs, State.allocOracle_withRegs, hr rc (by simp [readsOf])]
    split
    · exact sameOutcome_writeBack s regs (f := (·.setMem _)) (fun _ _ => rfl) _ _
    · exact sameOutcome_raise s regs _
  | unmap rc =>
    simp only [exec_unmap, execUnmap, State.mem_withRegs, hr rc (by simp [readsOf])]
    split
    · exact sameOutcome_complete s regs (f := (·.advance.setMem _)) fun _ _ => rfl
    · exact sameOutcome_raise s regs _
  | out rc =>
    simp only [exec_out, execOut, hr rc (by simp [readsOf])]
    split
    · exact sameOutcome_raise s regs _
    · exact sameOutcome_complete s regs (f := (·.advance.outByte _)) fun _ _ => rfl
  | inp rc =>
    simp only [exec_inp, execIn, State.inputAnswer_withRegs]
    split
    · exact sameOutcome_writeBack s regs (f := State.consumeInput) (fun _ _ => rfl) _ _
    · exact .fault .inputHold
  | loadp rb rc =>
    simp only [exec_loadp, execLoadp, State.mem_withRegs, hr rb (by simp [readsOf]), hr rc (by simp [readsOf])]
    split
    · exact sameOutcome_complete s regs (f := fun u => (u.advance.setMem _).setPc _) fun _ _ => rfl
    · exact sameOutcome_raise s regs _
  | li ra imm => exact sameOutcome_writeBack s regs plain ra imm

/-- Settles O36: the second state is the first with another register file, in which `i` reads the same operands. -/
theorem onlyTheReadRegistersMatter : Obligations.OnlyTheReadRegistersMatter := by
  intro i s s' hs hr
  have hs' : s' = s.withRegs s'.regs := hs
  generalize s'.regs = regs at hs'
  subst hs'
  have ho := exec_sameOutcome i s regs hr
  exact ⟨fun t ht => ho.of_next ht, fun f hf => ho.of_fault hf⟩

/-! The requests of a cycle (10_state.md R30, R36) -/

theorem requestOf_ne_fetch (i : Instr) (s : State) (pc : Word) : requestOf i s ≠ some (.fetch pc) := by
  cases i with
  | out rc => by_cases h : (s.reg rc).toNat > 255 <;> simp [requestOf, h]
  | _ => nofun

/-- The requests of a cycle: the fetch alone where it or the decoding fails, else the fetch and the instruction's. -/
theorem cycleRequests_cases {s : State} (h : s.status = .running) :
    cycleRequests s = [.fetch s.pc] ∨ ∃ i, cycleRequests s = .fetch s.pc :: (requestOf i s).toList := by
  simp only [cycleRequests, h]
  split
  · exact .inl rfl
  · split
    · exact .inl rfl
    · exact .inr ⟨_, rfl⟩

theorem cycleRequests_of_not_running {s : State} (h : s.status ≠ .running) : cycleRequests s = [] := by
  unfold cycleRequests
  split
  · contradiction
  · rfl
  · rfl

/-- Settles O41: no instruction's own request is a fetch. -/
theorem oneFetchAndAtMostOneOtherRequest : Obligations.OneFetchAndAtMostOneOtherRequest := by
  intro s h
  obtain e | ⟨i, e⟩ := cycleRequests_cases h
  · exact ⟨[], e, Nat.zero_le 1, nofun⟩
  · refine ⟨_, e, ?_, fun q hq pc hpc => ?_⟩
    · cases requestOf i s <;> simp
    · rw [Option.mem_toList, hpc] at hq
      exact requestOf_ne_fetch i s pc hq

/-- Settles O13: only a Running state steps or issues a request. -/
theorem haltedAndFaultedAreTerminal : Obligations.HaltedAndFaultedAreTerminal := by
  intro s h
  exact ⟨fun t ht => h (running_of_step_next ht), cycleRequests_of_not_running h, fun _ => rfl⟩

/-! The status port (10_state.md R41) -/

theorem Status.code_iff (v : Status) :
    (v.code = 0 ↔ v = .running) ∧ (v.code = 1 ↔ v = .halted) ∧ (v.code = 2 ↔ v = .faulted) ∧ v.code ≠ 3 := by
  cases v <;> decide

/-- Settles O50: the port's status is the code of the run status; its other outputs are the fields themselves. -/
theorem statusPortCarriesTheRecord : Obligations.StatusPortCarriesTheRecord := by
  intro s
  obtain ⟨hrunning, hhalted, hfaulted, hthree⟩ := s.status.code_iff
  exact ⟨hrunning, hhalted, hfaulted, hthree, rfl, rfl, rfl, rfl⟩

end Sys2Proof.Machine
end

section
/-! The memory family of 20_memory.md: every step keeps the machine's invariant and reset establishes it, and what one
memory instruction sees of the one before it. -/

namespace Sys2Proof.Machine

/-! The invariant as a proposition, one part at a time -/

theorem State.inv_iff (s : State) :
    s.inv = true ↔ s.mem.wf = true ∧ s.recordWf = true ∧ s.inputWf = true := by
  simp [State.inv, and_assoc]

theorem State.recordWf_iff_of_ne_faulted {s : State} (h : s.status ≠ .faulted) :
    s.recordWf = true ↔ s.fault = { cause := 0, pc := 0, word := 0 } := by
  unfold State.recordWf
  split
  · contradiction
  · exact decide_eq_true_iff
  · exact decide_eq_true_iff

theorem State.recordWf_faultEntry (s : State) (code : FaultCode) : (s.faultEntry code).recordWf = true := by
  simp [State.recordWf, code.code_bounds]

theorem State.inputWf_iff (s : State) :
    s.inputWf = true ↔ s.input.closed = true ∨ s.inputPos ≤ s.input.items.length := by
  simp [State.inputWf]

/-- Once an item is answered, consuming it keeps the input's invariant (45_io.md R191). -/
theorem State.inputWf_consumeInput {s : State} {item : InputItem} (h : s.inputAnswer = some item) :
    s.consumeInput.inputWf = true := by
  rw [State.inputWf_iff]
  obtain ⟨item', hitem, -⟩ | ⟨-, hclosed, -⟩ | ⟨-, -, hnone⟩ := s.inputAnswer_cases
  · exact .inr (List.getElem?_eq_some_iff.mp hitem).1
  · exact .inl hclosed
  · rw [hnone] at h
    cases h

/-- The input's invariant depends on the source and the position alone. -/
theorem State.inputWf_congr {s t : State} (hi : t.input = s.input) (hp : t.inputPos = s.inputPos) :
    t.inputWf = s.inputWf := by
  simp [State.inputWf, hi, hp]

/-! What a step does to each part of the invariant -/

/-- Whatever the request, the memory manager's state after the answer meets the invariants of 20_memory.md R51. -/
theorem State.serve_wf {s : State} (h : s.mem.wf = true) (r : DataRequest) : (s.serve r).2.wf = true := by
  cases r with
  | memRead id off =>
    simp only [State.serve]
    split <;> exact h
  | memWrite id off v =>
    simp only [State.serve]
    split
    next e => exact Memory.memWrite_wf h e
    next => exact h
  | segAlloc size =>
    simp only [State.serve]
    split
    next e => exact Memory.segAlloc_wf h e
    next => exact h
  | segFree id =>
    simp only [State.serve]
    split
    next e => exact Memory.segFree_wf h e
    next => exact h
  | segLoadProgram id =>
    simp only [State.serve]
    split
    next e => exact Memory.segLoadProgram_wf h e
    next => exact h

theorem memAfterRequest_wf {s : State} (h : s.mem.wf = true) (i : Instr) : (memAfterRequest i s).wf = true := by
  unfold memAfterRequest
  split
  · exact State.serve_wf h _
  · exact h

/-- An instruction that answers a next state took a fault, or kept the fault record and the environment's parameters
(60_exceptions.md R226, 40_dispatch.md R131). -/
theorem exec_next_fault_or_keeps {i : Instr} {s t : State} (h : exec i s = .next t) :
    (∃ code, t = s.faultEntry code) ∨ (t.fault = s.fault ∧ SameEnvironment s t) := by
  cases i with
  | cmov ra rb rc =>
    obtain ⟨-, e⟩ | ⟨-, e⟩ := execCmov_cases ra rb rc s <;> cases e.symm.trans h <;> exact .inr ⟨rfl, rfl, rfl⟩
  | load ra rb rc =>
    obtain ⟨code, -, e⟩ | ⟨w, -, e⟩ := execLoad_cases ra rb rc s <;> cases e.symm.trans h
    · exact .inl ⟨code, rfl⟩
    · exact .inr ⟨rfl, rfl, rfl⟩
  | store ra rb rc =>
    obtain ⟨code, -, e⟩ | ⟨m, -, e⟩ := execStore_cases ra rb rc s <;> cases e.symm.trans h
    · exact .inl ⟨code, rfl⟩
    · exact .inr ⟨rfl, rfl, rfl⟩
  | add ra rb rc | mul ra rb rc | nand ra rb rc | halt | li ra imm =>
    cases h
    exact .inr ⟨rfl, rfl, rfl⟩
  | div ra rb rc =>
    obtain ⟨-, e⟩ | ⟨-, q, -, e⟩ := execDiv_cases ra rb rc s <;> cases e.symm.trans h
    · exact .inl ⟨_, rfl⟩
    · exact .inr ⟨rfl, rfl, rfl⟩
  | map rb rc =>
    obtain ⟨code, -, e⟩ | ⟨id, m, -, e⟩ := execMap_cases rb rc s <;> cases e.symm.trans h
    · exact .inl ⟨code, rfl⟩
    · exact .inr ⟨rfl, rfl, rfl⟩
  | unmap rc =>
    obtain ⟨code, -, e⟩ | ⟨m, -, e⟩ := execUnmap_cases rc s <;> cases e.symm.trans h
    · exact .inl ⟨code, rfl⟩
    · exact .inr ⟨rfl, rfl, rfl⟩
  | out rc =>
    obtain ⟨-, e⟩ | ⟨-, e⟩ := execOut_cases rc s <;> cases e.symm.trans h
    · exact .inl ⟨_, rfl⟩
    · exact .inr ⟨rfl, rfl, rfl⟩
  | inp rc =>
    obtain ⟨-, e⟩ | ⟨item, -, e⟩ := execIn_cases rc s <;> cases e.symm.trans h
    exact .inr ⟨rfl, rfl, rfl⟩
  | loadp rb rc =>
    obtain ⟨code, -, e⟩ | ⟨m, -, e⟩ := execLoadp_cases rb rc s <;> cases e.symm.trans h
    · exact .inl ⟨code, rfl⟩
    · exact .inr ⟨rfl, rfl, rfl⟩

/-- Only IN moves the input position, and it completes only with an answer. -/
theorem Completion.inputWf {i : Instr} {s t : State} (hc : Completion i s t) (h : exec i s = .next t)
    (hi : t.input = s.input) (hwf : s.inputWf = true) : t.inputWf = true := by
  have hpos := hc.inputPos
  cases i with
  | inp rc =>
    obtain ⟨-, e⟩ | ⟨item, hitem, -⟩ := execIn_cases rc s
    · cases e.symm.trans h
    · rw [State.inputWf_congr (s := s.consumeInput) hi hpos]
      exact State.inputWf_consumeInput hitem
  | _ => rw [State.inputWf_congr hi hpos, hwf]

/-- Fault entry writes a cause of 1 to 9 into the record, and changes neither memory nor the input. -/
theorem State.inv_faultEntry {s : State} (h : s.inv = true) (code : FaultCode) : (s.faultEntry code).inv = true := by
  obtain ⟨hmem, -, hinput⟩ := s.inv_iff.mp h
  exact (State.inv_iff _).mpr ⟨hmem, s.recordWf_faultEntry code, hinput⟩

/-- An instruction executed in status Running keeps the invariant. -/
theorem exec_inv {i : Instr} {s t : State} (hinv : s.inv = true) (hrun : s.status = .running)
    (h : exec i s = .next t) : t.inv = true := by
  obtain ⟨code, rfl⟩ | ⟨hfault, hinput, -⟩ := exec_next_fault_or_keeps h
  · exact State.inv_faultEntry hinv code
  obtain ⟨code, rfl, -⟩ | hc := exec_next_cases h
  · exact State.inv_faultEntry hinv code
  obtain ⟨hmem, hrecord, hwf⟩ := s.inv_iff.mp hinv
  have hzero := (State.recordWf_iff_of_ne_faulted (by simp [hrun])).mp hrecord
  have hne : t.status ≠ .faulted := hc.status ▸ statusAfter_ne_faulted i hrun
  refine t.inv_iff.mpr ⟨?_, ?_, hc.inputWf h hinput hwf⟩
  · rw [hc.mem]
    exact memAfterRequest_wf hmem i
  · rw [State.recordWf_iff_of_ne_faulted hne, hfault, hzero]

/-- Settles O32: fault entry keeps the invariant, and so does the decoded instruction. -/
theorem everyStepKeepsTheInvariant : Obligations.EveryStepKeepsTheInvariant := by
  intro s t hinv h
  have hrun := running_of_step_next h
  rw [step_eq_of_running hrun] at h
  obtain ⟨code, -, e⟩ | ⟨w, err, -, -, e⟩ | ⟨w, i, -, -, e⟩ := runCycle_cases s <;> rw [e] at h
  · cases h
    exact State.inv_faultEntry hinv code
  · cases h
    exact State.inv_faultEntry hinv .invalidOpcode
  · exact exec_inv hinv hrun h

/-! Reset (20_memory.md R72, 70_reset_and_hazards.md R260, R264) -/

/-- A table whose one slot is live, with nothing in the pool, meets the invariants. -/
theorem Memory.single_wf {g : Segment} (h : g.wf = true) : ({ slots := [.live g], pool := [] } : Memory).wf = true := by
  refine (Memory.wf_iff _).mpr ⟨⟨g, rfl⟩, by simp [Memory.tableSize, Config.maxSlots], ?_, List.nodup_nil, nofun, ?_⟩
  · intro sl hsl
    rw [List.mem_singleton.mp hsl]
    exact h
  · intro k _ hfree
    have := List.mem_singleton.mp (List.mem_of_getElem? hfree)
    cases this

/-- Settles O34: the image is segment 0, the only one; the record is zeros and nothing is consumed. -/
theorem resetWithAnyImageEstablishesTheInvariant : Obligations.ResetWithAnyImageEstablishesTheInvariant := by
  intro s image hlen
  refine (State.inv_iff _).mpr ⟨Memory.single_wf (Segment.ofWords_wf hlen), rfl, ?_⟩
  exact (State.inputWf_iff _).mpr (.inr (Nat.zero_le _))

/-- Settles O33: `State.reset` is the reset input with the empty image. -/
theorem resetMeetsTheInvariant : Obligations.ResetMeetsTheInvariant :=
  resetWithAnyImageEstablishesTheInvariant State.reset [] (Nat.zero_le _)

/-! What a memory instruction that did not fault has done -/

theorem execStore_not_faulted {ra rb rc : Reg} {s t : State} (h : exec (.store ra rb rc) s = .next t)
    (ht : t.status = .running) :
    ∃ m, s.mem.memWrite (s.reg ra) (s.reg rb) (s.reg rc) = .ok m ∧ t = (s.advance.setMem m).retire := by
  obtain ⟨code, -, e⟩ | ⟨m, he, e⟩ := execStore_cases ra rb rc s <;> cases e.symm.trans h
  · cases ht
  · exact ⟨m, he, rfl⟩

theorem execLoadp_not_faulted {rb rc : Reg} {s t : State} (h : exec (.loadp rb rc) s = .next t)
    (ht : t.status = .running) :
    ∃ m, s.mem.segLoadProgram (s.reg rb) = .ok m ∧ t = ((s.advance.setMem m).setPc (s.reg rc)).retire := by
  obtain ⟨code, -, e⟩ | ⟨m, he, e⟩ := execLoadp_cases rb rc s <;> cases e.symm.trans h
  · cases ht
  · exact ⟨m, he, rfl⟩

theorem execUnmap_not_faulted {rc : Reg} {s t : State} (h : exec (.unmap rc) s = .next t)
    (ht : t.status = .running) :
    ∃ m, s.mem.segFree (s.reg rc) = .ok m ∧ t = (s.advance.setMem m).retire := by
  obtain ⟨code, -, e⟩ | ⟨m, he, e⟩ := execUnmap_cases rc s <;> cases e.symm.trans h
  · cases ht
  · exact ⟨m, he, rfl⟩

theorem execLoad_of_memRead {ra rb rc : Reg} {s : State} {w : Word} (h : s.mem.memRead (s.reg rb) (s.reg rc) = .ok w) :
    exec (.load ra rb rc) s = .next (s.advance.setReg ra w).retire := by
  simp [execLoad, h, writeBack_eq]

theorem execMap_of_segAlloc {rb rc : Reg} {s : State} {id : Word} {m : Memory}
    (h : s.mem.segAlloc (s.allocOracle (s.reg rc)) (s.reg rc) = .ok (id, m)) :
    exec (.map rb rc) s = .next ((s.setMem m).advance.setReg rb id).retire := by
  simp [execMap, h, writeBack_eq]

/-- Settles O42: the STORE changes no register, so the LOAD reads the word it wrote. -/
theorem loadReadsThePrecedingStore : Obligations.LoadReadsThePrecedingStore := by
  intro ra rb rc rd s t hwf _ h ht
  obtain ⟨m, he, rfl⟩ := execStore_not_faulted h ht
  exact ⟨_, execLoad_of_memRead (Memory.memRead_memWrite_self hwf he), by simp⟩

theorem Memory.fetch_of_memRead {m : Memory} {pc w : Word} (h : m.memRead 0#32 pc = .ok w) : m.fetch pc = .ok w := by
  rw [Memory.fetch_eq, h]

/-- Settles O43: a fetch is a read of segment 0, and the STORE has left `pc` at the next offset. -/
theorem storeIntoProgramIsSeenByTheNextFetch : Obligations.StoreIntoProgramIsSeenByTheNextFetch := by
  intro ra rb rc s t i hwf _ hra h ht
  obtain ⟨m, he, rfl⟩ := execStore_not_faulted h ht
  rw [hra] at he
  have hfetch := Memory.fetch_of_memRead (Memory.memRead_memWrite_self hwf he)
  refine ⟨hfetch, fun hnext hd => ?_⟩
  have hpc : s.pc + 1#32 = s.reg rb := BitVec.eq_of_toNat_eq (by simp [BitVec.toNat_add, hnext])
  rw [step_eq_of_running ht]
  simp [runCycle, hpc, hfetch, hd]

/-! Aliasing (20_memory.md R60, R62) -/

/-- Whether it faults or not, a STORE leaves every segment but the addressed one as it was. -/
theorem execStore_memRead_of_ne {ra rb rc : Reg} {s t : State} (h : exec (.store ra rb rc) s = .next t) {id : Word}
    (hne : id ≠ s.reg ra) (off : Word) : t.mem.memRead id off = s.mem.memRead id off := by
  obtain ⟨code, -, e⟩ | ⟨m, he, e⟩ := execStore_cases ra rb rc s <;> cases e.symm.trans h
  · rfl
  · exact Memory.memRead_memWrite_of_ne he (.inl hne)

/-- Settles O44: after the LOADP both segments read as the source did, and each STORE leaves the other one alone. -/
theorem loadedProgramDoesNotAlias : Obligations.LoadedProgramDoesNotAlias := by
  intro rb rc s t hwf _ hne h ht ra' rb' rc' u hu
  obtain ⟨m, he, rfl⟩ := execLoadp_not_faulted h ht
  obtain ⟨hprogram, -, -, hother⟩ := Memory.segLoadProgram_segment? hwf he
  refine ⟨fun hra off => ?_, fun hra off => ?_⟩
  · calc u.mem.memRead (s.reg rb) off
      _ = m.memRead (s.reg rb) off := execStore_memRead_of_ne hu (by rwa [hra]) off
      _ = s.mem.memRead (s.reg rb) off := Memory.memRead_congr (hother _ hne) off
  · calc u.mem.memRead 0 off
      _ = m.memRead 0 off := execStore_memRead_of_ne hu (by rw [hra]; exact hne.symm) off
      _ = s.mem.memRead (s.reg rb) off := by simp [Memory.memRead, hprogram]

/-! Identifiers (20_memory.md R56, R57) -/

/-- A granted allocation answers the most recently freed identifier and takes it out of the pool. -/
theorem Memory.segAlloc_of_pool_cons {m : Memory} {id : Word} {rest : List Word} (h : m.pool = id :: rest) (size : Word) :
    ∃ m', m.segAlloc true size = .ok (id, m') ∧ m'.pool = rest :=
  ⟨({ m with pool := rest } : Memory).setSlot id (.live (.zeros size.toNat)), by simp [Memory.segAlloc, h], rfl⟩

/-- A granted allocation with an empty pool answers the table size, lengthens the table by one slot and leaves the pool empty. -/
theorem Memory.segAlloc_of_pool_nil {m : Memory} (h : m.pool = []) (hn : m.tableSize < 2 ^ 32) (size : Word) :
    ∃ m', m.segAlloc true size = .ok (BitVec.ofNat 32 m.tableSize, m') ∧ m'.pool = [] ∧
      m'.tableSize = m.tableSize + 1 := by
  have hmax : m.tableSize < Config.maxSlots := hn
  exact ⟨{ m with slots := m.slots ++ [.live (.zeros size.toNat)] }, by simp [Memory.segAlloc, h, hmax], h,
    by simp [Memory.tableSize]⟩

/-- Every offset below the size of a newly allocated segment reads 0 (20_memory.md R56). -/
theorem Memory.memRead_of_segment?_zeros {m : Memory} {id : Word} {n : Nat} (h : m.segment? id = some (.zeros n))
    {off : Word} (ho : off.toNat < n) : m.memRead id off = .ok 0 := by
  simp [Memory.memRead, h, ho]

/-- Settles O45: the freed identifier is the head of the pool, and what MAP makes live is all zeros. -/
theorem unmapThenMapReusesTheIdentifier : Obligations.UnmapThenMapReusesTheIdentifier := by
  intro ru rb rc s t hwf _ h ht hgranted
  obtain ⟨m, he, rfl⟩ := execUnmap_not_faulted h ht
  obtain ⟨-, -, -, hpool, -, -⟩ := Memory.segFree_segment? he
  obtain ⟨m', halloc, hpool'⟩ := Memory.segAlloc_of_pool_cons hpool (s.reg rc)
  obtain ⟨-, -, hzeros, -⟩ := Memory.segAlloc_segment? (Memory.segFree_wf hwf he) halloc
  rw [← hgranted] at halloc
  exact ⟨_, execMap_of_segAlloc halloc, by simp, hpool', fun off ho => Memory.memRead_of_segment?_zeros hzeros ho⟩

/-- A granted MAP with an empty pool returns the table size, and leaves the pool empty, the table one slot longer and the
oracle as it was. -/
theorem execMap_mints {rb rc : Reg} {s : State} (hpool : s.mem.pool = []) (hn : s.mem.tableSize < 2 ^ 32)
    (hgranted : s.allocOracle (s.reg rc) = true) :
    ∃ t, exec (.map rb rc) s = .next t ∧ (t.reg rb).toNat = s.mem.tableSize ∧ t.mem.pool = [] ∧
      t.mem.tableSize = s.mem.tableSize + 1 ∧ t.allocOracle = s.allocOracle := by
  obtain ⟨m, halloc, hpool', hsize⟩ := Memory.segAlloc_of_pool_nil hpool hn (s.reg rc)
  rw [← hgranted] at halloc
  exact ⟨_, execMap_of_segAlloc halloc, by simpa using hn, hpool', hsize, rfl⟩

/-- Settles O46: each MAP mints the table size and lengthens the table by one. -/
theorem successiveMapsMintIncreasingIdentifiers : Obligations.SuccessiveMapsMintIncreasingIdentifiers := by
  refine ⟨fun _ _ => ⟨rfl, rfl⟩, fun rb rc rb' rc' s _ hpool hn hgranted => ?_⟩
  obtain ⟨t, ht, hid, hpool', hsize, horacle⟩ := execMap_mints (rb := rb) hpool (by omega) (hgranted (s.reg rc))
  obtain ⟨u, hu, hid', -⟩ := execMap_mints (rb := rb') (rc := rc') hpool' (by omega) (by rw [horacle, hgranted])
  exact ⟨t, u, ht, hu, hid, by rw [hid', hsize]⟩

end Sys2Proof.Machine
end

section
/-! The encoding family of 30_encoding.md: the decoder and the encoder as inverses on the bits an instruction uses, the
decoder's output wires, and the pseudo-instructions. -/

namespace Sys2Proof

open Machine

/-! The decoder as a relation between words and instructions -/

/-- The operands of the instruction are the fields of the word that its row of the opcode map uses (30_encoding.md R94, R97). -/
def Instr.OperandsFrom (w : Word) : Instr → Prop
  | .cmov ra rb rc => ra = fieldRa w ∧ rb = fieldRb w ∧ rc = fieldRc w
  | .load ra rb rc => ra = fieldRa w ∧ rb = fieldRb w ∧ rc = fieldRc w
  | .store ra rb rc => ra = fieldRa w ∧ rb = fieldRb w ∧ rc = fieldRc w
  | .add ra rb rc => ra = fieldRa w ∧ rb = fieldRb w ∧ rc = fieldRc w
  | .mul ra rb rc => ra = fieldRa w ∧ rb = fieldRb w ∧ rc = fieldRc w
  | .div ra rb rc => ra = fieldRa w ∧ rb = fieldRb w ∧ rc = fieldRc w
  | .nand ra rb rc => ra = fieldRa w ∧ rb = fieldRb w ∧ rc = fieldRc w
  | .halt => True
  | .map rb rc => rb = fieldRb w ∧ rc = fieldRc w
  | .unmap rc => rc = fieldRc w
  | .out rc => rc = fieldRc w
  | .inp rc => rc = fieldRc w
  | .loadp rb rc => rb = fieldRb w ∧ rc = fieldRc w
  | .li ra imm => ra = fieldRaRi w ∧ imm = fieldImm w

/-- Decoding succeeds exactly for opcodes 0 to 13, and otherwise names the opcode (30_encoding.md R96, R98). -/
theorem decode_ok_or_error (w : Word) :
    ((fieldOp w).toNat ≤ 13 ∧ ∃ i, decode w = .ok i) ∨
    (13 < (fieldOp w).toNat ∧ decode w = .error (.invalidOpcode (fieldOp w))) := by
  obtain ⟨hop, e⟩ | ⟨hop, e⟩ | ⟨hop, e⟩ | ⟨hop, e⟩ | ⟨hop, e⟩ | ⟨hop, e⟩ | ⟨hop, e⟩ | ⟨hop, e⟩ | ⟨hop, e⟩ | ⟨hop, e⟩ |
    ⟨hop, e⟩ | ⟨hop, e⟩ | ⟨hop, e⟩ | ⟨hop, e⟩ | ⟨hop, e⟩ := decode_cases w
  on_goal 15 => exact .inr ⟨hop, e⟩
  all_goals exact .inl ⟨by omega, _, e⟩

/-- A word decodes to the instruction of its opcode whose operands are the word's fields, and to no other. -/
theorem decode_eq_ok_iff {w : Word} {i : Instr} : decode w = .ok i ↔ i.opcode = fieldOp w ∧ i.OperandsFrom w := by
  constructor
  · intro h
    have hop {n : BitVec 4} (hn : (fieldOp w).toNat = n.toNat) : n = fieldOp w := (BitVec.eq_of_toNat_eq hn).symm
    obtain ⟨hn, e⟩ | ⟨hn, e⟩ | ⟨hn, e⟩ | ⟨hn, e⟩ | ⟨hn, e⟩ | ⟨hn, e⟩ | ⟨hn, e⟩ | ⟨hn, e⟩ | ⟨hn, e⟩ | ⟨hn, e⟩ |
      ⟨hn, e⟩ | ⟨hn, e⟩ | ⟨hn, e⟩ | ⟨hn, e⟩ | ⟨hn, e⟩ := decode_cases w <;> cases e.symm.trans h <;>
      exact ⟨hop hn, by simp [Instr.OperandsFrom]⟩
  · rintro ⟨hop, hf⟩
    cases i with
    | cmov ra rb rc | load ra rb rc | store ra rb rc | add ra rb rc | mul ra rb rc | div ra rb rc | nand ra rb rc =>
      obtain ⟨rfl, rfl, rfl⟩ := hf
      simp [decode, ← hop, Instr.opcode]
    | halt => simp [decode, ← hop, Instr.opcode]
    | map rb rc | loadp rb rc | li ra imm =>
      obtain ⟨rfl, rfl⟩ := hf
      simp [decode, ← hop, Instr.opcode]
    | unmap rc | out rc | inp rc =>
      cases hf
      simp [decode, ← hop, Instr.opcode]

/-- A word of the instruction's opcode that holds its operands decodes to it. -/
theorem decode_of_opcode {w : Word} {i : Instr} (hop : w.toNat / 2 ^ 28 = i.opcode.toNat) (hi : i.OperandsFrom w) :
    decode w = .ok i :=
  decode_eq_ok_iff.mpr ⟨BitVec.eq_of_toNat_eq (hop.symm.trans (toNat_fieldOp w).symm), hi⟩

theorem decode_eq_error_iff (w : Word) : (∃ e, decode w = .error e) ↔ 14 ≤ w.toNat / 2 ^ 28 := by
  rw [← toNat_fieldOp]
  obtain ⟨hop, i, hi⟩ | ⟨hop, he⟩ := decode_ok_or_error w
  · simp [hi, show ¬ 14 ≤ (fieldOp w).toNat by omega]
  · exact ⟨fun _ => hop, fun _ => ⟨_, he⟩⟩

/-! Words with equal fields -/

section
variable {w w' : Word}

theorem fieldOp_congr (h : w.toNat / 2 ^ 28 = w'.toNat / 2 ^ 28) : fieldOp w = fieldOp w' :=
  BitVec.eq_of_toNat_eq (by rw [toNat_fieldOp, toNat_fieldOp, h])

theorem fieldRa_congr (h : w.toNat % 2 ^ 9 = w'.toNat % 2 ^ 9) : fieldRa w = fieldRa w' :=
  BitVec.eq_of_toNat_eq (by rw [toNat_fieldRa, toNat_fieldRa]; omega)

theorem fieldRb_congr (h : w.toNat % 2 ^ 6 = w'.toNat % 2 ^ 6) : fieldRb w = fieldRb w' :=
  BitVec.eq_of_toNat_eq (by rw [toNat_fieldRb, toNat_fieldRb]; omega)

theorem fieldRc_congr (h : w.toNat % 2 ^ 3 = w'.toNat % 2 ^ 3) : fieldRc w = fieldRc w' :=
  BitVec.eq_of_toNat_eq (by rw [toNat_fieldRc, toNat_fieldRc]; omega)

/-- In format RRR an instruction's operands are among the three register fields. -/
theorem Instr.OperandsFrom.congr_rrr {i : Instr} (h : i.OperandsFrom w) (hi : i.opcode ≠ 13)
    (ha : fieldRa w = fieldRa w') (hb : fieldRb w = fieldRb w') (hc : fieldRc w = fieldRc w') : i.OperandsFrom w' := by
  cases i with
  | li ra imm => exact absurd rfl hi
  | halt => trivial
  | _ => simpa [Instr.OperandsFrom, ha, hb, hc] using h

end

/-! What the encoder writes is what the decoder reads (30_encoding.md R100) -/

theorem operandsFrom_encode {i : Instr} (h : i.wellFormed = true) : i.OperandsFrom (encode i) := by
  cases i with
  | li ra imm =>
    have himm : imm.toNat < 2 ^ 25 := of_decide_eq_true h
    exact ⟨(fieldRaRi_encRi ra himm).symm, (fieldImm_encRi ra himm).symm⟩
  | _ => simp [Instr.OperandsFrom, encode, fieldRa_encRrr, fieldRb_encRrr, fieldRc_encRrr]

theorem fieldOp_encode {i : Instr} (h : i.wellFormed = true) : fieldOp (encode i) = i.opcode := by
  cases i with
  | li ra imm => exact (Laws.EncodedFields.li ra imm h).1
  | _ => exact fieldOp_encRrr _ _ _ _

/-- Settles O1: the encoder writes the opcode and the operands into the fields that the decoder reads. -/
theorem decodeEncodeRoundTrip : Obligations.DecodeEncodeRoundTrip := fun _ h =>
  decode_eq_ok_iff.mpr ⟨(fieldOp_encode h).symm, operandsFrom_encode h⟩

/-- Settles O3: the fields given as arithmetic are the decoder's. -/
theorem decodeReadsItsFields : Obligations.DecodeReadsItsFields := by
  intro w a b c d v ha hb hc hd hv
  have ea : a = fieldRa w := BitVec.eq_of_toNat_eq (ha.trans (toNat_fieldRa w).symm)
  have eb : b = fieldRb w := BitVec.eq_of_toNat_eq (hb.trans (toNat_fieldRb w).symm)
  have ec : c = fieldRc w := BitVec.eq_of_toNat_eq (hc.trans (toNat_fieldRc w).symm)
  have ed : d = fieldRaRi w := BitVec.eq_of_toNat_eq (hd.trans (toNat_fieldRaRi w).symm)
  have ev : v = fieldImm w := BitVec.eq_of_toNat_eq (hv.trans (toNat_fieldImm w).symm)
  exact ⟨
    fun h => decode_of_opcode h ⟨ea, eb, ec⟩, fun h => decode_of_opcode h ⟨ea, eb, ec⟩,
    fun h => decode_of_opcode h ⟨ea, eb, ec⟩, fun h => decode_of_opcode h ⟨ea, eb, ec⟩,
    fun h => decode_of_opcode h ⟨ea, eb, ec⟩, fun h => decode_of_opcode h ⟨ea, eb, ec⟩,
    fun h => decode_of_opcode h ⟨ea, eb, ec⟩, fun h => decode_of_opcode h trivial,
    fun h => decode_of_opcode h ⟨eb, ec⟩, fun h => decode_of_opcode h ec,
    fun h => decode_of_opcode h ec, fun h => decode_of_opcode h ec,
    fun h => decode_of_opcode h ⟨eb, ec⟩, fun h => decode_of_opcode h ⟨ed, ev⟩,
    (decode_eq_error_iff w).mpr⟩

/-- Settles O2: the fields of `enc_rrr` and of `enc_ri` do not overlap. -/
theorem encodingFunctionsPlaceTheirFields : Obligations.EncodingFunctionsPlaceTheirFields :=
  ⟨toNat_encRrr, fun a _ hv => toNat_encRi a (Nat.lt_succ_of_le hv)⟩

/-- Words of one opcode decode alike when the second also holds the operands that the first decodes to. -/
theorem decode_congr {w w' : Word} {i : Instr} (hop : w.toNat / 2 ^ 28 = w'.toNat / 2 ^ 28) (h : decode w = .ok i)
    (hi : i.OperandsFrom w') : decode w = decode w' := by
  rw [h, decode_eq_ok_iff.mpr ⟨(decode_eq_ok_iff.mp h).1.trans (fieldOp_congr hop), hi⟩]

/-- Settles O5: the words have the opcode and every field the instruction uses in common. -/
theorem unusedFieldsAreIgnored : Obligations.UnusedFieldsAreIgnored := by
  intro w w' hop
  refine ⟨fun h => ?_, fun h hlow => ?_, fun h hlow => ?_⟩
  · exact decode_congr hop (decode_of_opcode (i := .halt) h trivial) trivial
  · have hb : fieldRb w = fieldRb w' := fieldRb_congr hlow
    have hc : fieldRc w = fieldRc w' := fieldRc_congr (by omega)
    rcases h with h | h
    · exact decode_congr hop (decode_of_opcode (i := .map _ _) h ⟨rfl, rfl⟩) ⟨hb, hc⟩
    · exact decode_congr hop (decode_of_opcode (i := .loadp _ _) h ⟨rfl, rfl⟩) ⟨hb, hc⟩
  · have hc : fieldRc w = fieldRc w' := fieldRc_congr hlow
    rcases h with h | h | h
    · exact decode_congr hop (decode_of_opcode (i := .unmap _) h rfl) hc
    · exact decode_congr hop (decode_of_opcode (i := .out _) h rfl) hc
    · exact decode_congr hop (decode_of_opcode (i := .inp _) h rfl) hc

/-- The bits [27:9] of a word of format RRR are ignored (30_encoding.md R96). -/
theorem decode_congr_rrr {w w' : Word} (hop : w.toNat / 2 ^ 28 = w'.toNat / 2 ^ 28) (hne : w.toNat / 2 ^ 28 ≠ 13)
    (hle : w.toNat / 2 ^ 28 ≤ 13) (hlow : w.toNat % 2 ^ 9 = w'.toNat % 2 ^ 9) : decode w = decode w' := by
  rw [← toNat_fieldOp] at hne hle
  obtain ⟨-, i, hi⟩ | ⟨hgt, -⟩ := decode_ok_or_error w
  · obtain ⟨hiop, hfields⟩ := decode_eq_ok_iff.mp hi
    have hrrr : i.opcode ≠ 13 := fun h => hne (by rw [← hiop, h]; rfl)
    exact decode_congr hop hi
      (hfields.congr_rrr hrrr (fieldRa_congr hlow) (fieldRb_congr (by omega)) (fieldRc_congr (by omega)))
  · omega

/-- A Running state that fetches a word which is no instruction takes INVALID_OPCODE (30_encoding.md R96, 40_dispatch.md R123). -/
theorem step_of_decode_error {s : State} {w : Word} {e : DecodeError} (hs : s.status = .running)
    (hf : s.mem.fetch s.pc = .ok w) (he : decode w = .error e) : step s = .next (s.faultEntry .invalidOpcode) := by
  rw [step_eq_of_running hs]
  simp [runCycle, hf, he, raise_eq]

/-- Settles O4: there is no opcode above 15, and the step of an invalid word is fault entry. -/
theorem invalidExactlyOpcodes14And15 : Obligations.InvalidExactlyOpcodes14And15 := by
  have hinvalid (w : Word) : (∃ e, decode w = .error e) ↔ (w.toNat / 2 ^ 28 = 14 ∨ w.toNat / 2 ^ 28 = 15) := by
    have hlt := w.isLt
    rw [decode_eq_error_iff]
    omega
  refine ⟨hinvalid, fun s w hs hf hop => ?_, fun _ _ => decode_congr_rrr⟩
  obtain ⟨e, he⟩ := (hinvalid w).mpr hop
  exact ⟨_, step_of_decode_error hs hf he, faultTaken_faultEntry s .invalidOpcode⟩

/-! Encoding what was decoded (30_encoding.md R97, R100) -/

/-- A field of a word, put back where it was read, is the word with every other bit cleared. -/
theorem shiftLeft_extractLsb' (w : Word) (start len : Nat) :
    (w.extractLsb' start len).setWidth 32 <<< start = w &&& (BitVec.allOnes len).setWidth 32 <<< start := by
  ext j hj
  by_cases hs : j < start
  · simp [hs]
  · have hback : start + (j - start) = j := by omega
    simp [hs, hback, BitVec.getLsbD_eq_getElem hj, Bool.and_comm]

theorem shiftLeft_fieldOp (w : Word) : (fieldOp w).setWidth 32 <<< 28 = w &&& 0xF0000000#32 :=
  shiftLeft_extractLsb' w 28 4

theorem shiftLeft_fieldRa (w : Word) : (fieldRa w).setWidth 32 <<< 6 = w &&& 0x1C0#32 :=
  shiftLeft_extractLsb' w 6 3

theorem shiftLeft_fieldRb (w : Word) : (fieldRb w).setWidth 32 <<< 3 = w &&& 0x38#32 :=
  shiftLeft_extractLsb' w 3 3

theorem setWidth_fieldRc (w : Word) : (fieldRc w).setWidth 32 = w &&& 7#32 := by
  simpa [fieldRc] using shiftLeft_extractLsb' w 0 3

theorem shiftLeft_fieldRaRi (w : Word) : (fieldRaRi w).setWidth 32 <<< 25 = w &&& 0x0E000000#32 :=
  shiftLeft_extractLsb' w 25 3

theorem fieldImm_eq_and (w : Word) : fieldImm w = w &&& 0x01FFFFFF#32 := by
  simpa [fieldImm] using shiftLeft_extractLsb' w 0 25

/-- `enc_rrr` of a word's opcode with register indices that are each a field of the word or 0. -/
theorem encRrr_eq_and {w ma mb mc : Word} {op : BitVec 4} {a b c : Reg} (hop : op = fieldOp w)
    (ha : a.setWidth 32 <<< 6 = w &&& ma) (hb : b.setWidth 32 <<< 3 = w &&& mb) (hc : c.setWidth 32 = w &&& mc) :
    encRrr op a b c = w &&& (0xF0000000#32 ||| ma ||| mb ||| mc) := by
  simp only [encRrr, hop, shiftLeft_fieldOp, ha, hb, hc, BitVec.and_or_distrib_left]

theorem encRi_fields {w : Word} (hop : fieldOp w = 13) : encRi (fieldRaRi w) (fieldImm w) = w := by
  have h13 : (13#32 <<< 28 : Word) = w &&& 0xF0000000#32 := by rw [← shiftLeft_fieldOp, hop]; rfl
  calc encRi (fieldRaRi w) (fieldImm w)
    _ = w &&& (0xF0000000#32 ||| 0x0E000000#32 ||| 0x01FFFFFF#32) := by
      rw [encRi, h13, shiftLeft_fieldRaRi, fieldImm_eq_and, BitVec.and_or_distrib_left, BitVec.and_or_distrib_left]
    _ = w := BitVec.and_allOnes

theorem wellFormed_of_operandsFrom {w : Word} {i : Instr} (h : i.OperandsFrom w) : i.wellFormed = true := by
  cases i with
  | li ra imm =>
    obtain ⟨-, rfl⟩ := h
    have hlt : (fieldImm w).toNat < 2 ^ 25 := toNat_fieldImm w ▸ Nat.mod_lt _ (by decide)
    exact decide_eq_true hlt
  | _ => rfl

theorem encode_eq_and_usedBits {w : Word} {i : Instr} (hop : i.opcode = fieldOp w) (h : i.OperandsFrom w) :
    encode i = w &&& usedBits i := by
  have ha := shiftLeft_fieldRa w
  have hb := shiftLeft_fieldRb w
  have hc := setWidth_fieldRc w
  have ha0 : (0 : Reg).setWidth 32 <<< 6 = w &&& 0#32 := by simp
  have hb0 : (0 : Reg).setWidth 32 <<< 3 = w &&& 0#32 := by simp
  have hc0 : (0 : Reg).setWidth 32 = w &&& 0#32 := by simp
  cases i with
  | cmov ra rb rc | load ra rb rc | store ra rb rc | add ra rb rc | mul ra rb rc | div ra rb rc | nand ra rb rc =>
    obtain ⟨rfl, rfl, rfl⟩ := h
    exact encRrr_eq_and hop ha hb hc
  | halt => exact encRrr_eq_and hop ha0 hb0 hc0
  | map rb rc | loadp rb rc =>
    obtain ⟨rfl, rfl⟩ := h
    exact encRrr_eq_and hop ha0 hb hc
  | unmap rc | out rc | inp rc =>
    cases h
    exact encRrr_eq_and hop ha0 hb0 hc
  | li ra imm =>
    obtain ⟨rfl, rfl⟩ := h
    exact (encRi_fields hop.symm).trans BitVec.and_allOnes.symm

/-- Settles O6: each field is put back where it was read. -/
theorem encodeKeepsExactlyTheUsedBits : Obligations.EncodeKeepsExactlyTheUsedBits := by
  intro w i h
  obtain ⟨hop, hfields⟩ := decode_eq_ok_iff.mp h
  exact ⟨wellFormed_of_operandsFrom hfields, encode_eq_and_usedBits hop hfields⟩

/-! The decoder's output wires (30_encoding.md R99) -/

theorem decoderOutputs_valid_iff (w : Word) : (decoderOutputs w).valid = true ↔ (fieldOp w).toNat ≤ 13 := by
  by_cases h : (fieldOp w).toNat ≤ 13 <;> simp [decoderOutputs, h]

/-- While `valid = 1` no wire is a don't-care. -/
theorem decoderOutputs_of_le {w : Word} (h : (fieldOp w).toNat ≤ 13) :
    decoderOutputs w =
      { valid := true, op := fieldOp w, ra := if (fieldOp w).toNat = 13 then fieldRaRi w else fieldRa w,
        rb := fieldRb w, rc := fieldRc w, imm := fieldImm w } :=
  if_pos h

/-- The instruction the wires describe is the decoder's, and there is none when it refuses. -/
theorem instrOfOutputs_decoderOutputs (w : Word) : instrOfOutputs (decoderOutputs w) = (decode w).toOption := by
  obtain ⟨hop, e⟩ | ⟨hop, e⟩ | ⟨hop, e⟩ | ⟨hop, e⟩ | ⟨hop, e⟩ | ⟨hop, e⟩ | ⟨hop, e⟩ | ⟨hop, e⟩ | ⟨hop, e⟩ | ⟨hop, e⟩ |
    ⟨hop, e⟩ | ⟨hop, e⟩ | ⟨hop, e⟩ | ⟨hop, e⟩ | ⟨hop, e⟩ := decode_cases w
  on_goal 15 => simp [decoderOutputs, instrOfOutputs, e, Nat.not_le.mpr hop, Except.toOption]
  all_goals simp [decoderOutputs_of_le (show (fieldOp w).toNat ≤ 13 by omega), instrOfOutputs, e, hop, Except.toOption]

/-- Settles O7: the wires are the fields, and they describe what the decoder answers. -/
theorem decoderOutputsDescribeTheInstruction : Obligations.DecoderOutputsDescribeTheInstruction := by
  intro w
  have hvalid : (decoderOutputs w).valid = true ↔ w.toNat / 2 ^ 28 ≤ 13 := by
    rw [decoderOutputs_valid_iff, toNat_fieldOp]
  refine ⟨hvalid, fun hv => ?_, fun i => ?_⟩
  · rw [decoderOutputs_of_le ((decoderOutputs_valid_iff w).mp hv)]
    refine ⟨toNat_fieldOp w, ?_, toNat_fieldRb w, toNat_fieldRc w, toNat_fieldImm w⟩
    rw [toNat_fieldOp, apply_ite BitVec.toNat, toNat_fieldRaRi, toNat_fieldRa]
  · rw [instrOfOutputs_decoderOutputs]
    cases decode w <;> simp [Except.toOption]

end Sys2Proof
end

section
/-! What the pseudo-instructions of 30_encoding.md R102 do, from what their expansions do. -/

namespace Sys2Proof.Machine

theorem State.setReg_reg (s : State) (r : Reg) : s.setReg r (s.reg r) = s := by
  simp [State.setReg, State.reg]

theorem retires_retire {s t : State} (hicount : t.icount = s.icount) (hstatus : SameStatus s t)
    (henv : SameEnvironment s t) : Retires s t.retire :=
  ⟨by simp [Counted, hicount, BitVec.toNat_add], hstatus, henv⟩

/-- Moving a register into itself changes no register, whatever the condition (41_move_and_arith.md R150). -/
theorem execCmov_self (r rc : Reg) (s : State) : exec (.cmov r r rc) s = .next s.advance.retire := by
  obtain ⟨-, e⟩ | ⟨-, e⟩ := execCmov_cases r r rc s
  · exact e
  · rw [exec_cmov, e, ← State.reg_advance, State.setReg_reg]

theorem exec_nand_next (ra rb rc : Reg) (s : State) :
    ∃ t, exec (.nand ra rb rc) s = .next t ∧ t.reg ra = ~~~(s.reg rb &&& s.reg rc) ∧ SameRegsBut ra s t :=
  ⟨_, writeBack_eq _ _ _, by simp [Alu.nand], fun r hr => by simp [hr]⟩

/-- Loading segment 0 as the program changes nothing (20_memory.md R60). -/
theorem Memory.segLoadProgram_zero {m : Memory} (h : m.wf = true) : m.segLoadProgram 0#32 = .ok m := by
  obtain ⟨⟨g, hg⟩, -⟩ := (Memory.wf_iff m).mp h
  obtain ⟨hlt, hslot⟩ := List.getElem?_eq_some_iff.mp (Memory.segment?_some.mp hg)
  have hset : m.setSlot 0#32 (.live g) = m := by
    rw [Memory.setSlot, ← hslot, List.set_getElem_self]
  simp [Memory.segLoadProgram, hg, hset]

theorem execLoadp_of_segLoadProgram {rb rc : Reg} {s : State} {m : Memory} (h : s.mem.segLoadProgram (s.reg rb) = .ok m) :
    exec (.loadp rb rc) s = .next ((s.advance.setMem m).setPc (s.reg rc)).retire := by
  simp [execLoadp, h, complete_eq]

/-- Settles O52: the second NAND of AND complements the first one's result, and JMP loads segment 0 onto itself. -/
theorem pseudoInstructionsMeanTheirNames : Obligations.PseudoInstructionsMeanTheirNames := by
  refine ⟨⟨by decide, fun i hi s => ?_⟩, fun ra rb s => ?_, fun ra rb rc s => ?_, fun rz rc s hwf hz => ?_⟩
  · rw [List.mem_singleton.mp hi]
    exact ⟨_, execCmov_self 0 0 s, fun _ => rfl, nextInSequence_of_pc_eq rfl,
      retires_retire rfl ⟨rfl, rfl⟩ ⟨rfl, rfl⟩, State.sameMemory_of_eq rfl, rfl, rfl⟩
  · obtain ⟨t, ht, hreg, hothers⟩ := exec_nand_next ra rb rb s
    exact ⟨_, t, rfl, ht, by rw [hreg, BitVec.and_self], hothers⟩
  · obtain ⟨t, ht, hreg, hothers⟩ := exec_nand_next ra rb rc s
    obtain ⟨u, hu, hreg', hothers'⟩ := exec_nand_next ra ra ra t
    refine ⟨_, _, t, u, rfl, ht, hu, ?_, fun r hr => (hothers' r hr).trans (hothers r hr)⟩
    rw [hreg', hreg, BitVec.and_self, BitVec.not_not]
  · have hload : s.mem.segLoadProgram (s.reg rz) = .ok s.mem := hz ▸ Memory.segLoadProgram_zero hwf
    exact ⟨_, _, rfl, execLoadp_of_segLoadProgram hload, rfl, fun _ => rfl,
      retires_retire rfl ⟨rfl, rfl⟩ ⟨rfl, rfl⟩, State.sameMemory_of_eq rfl, rfl, rfl⟩

end Sys2Proof.Machine
end

section
/-! The dispatch family of 40_dispatch.md: which case of the cycle a step is, when there is a step at all, and the one
register an instruction may write. -/

namespace Sys2Proof.Machine

/-! The one register write of an instruction (40_dispatch.md R127) -/

/-- An instruction that answers a next state left the register file alone, or wrote one word to the register its row names. -/
theorem exec_regs_cases {i : Instr} {s t : State} (h : exec i s = .next t) :
    t.regs = s.regs ∨ ∃ d v, writesOf i = some d ∧ t.regs = (s.setReg d v).regs := by
  cases i with
  | cmov ra rb rc =>
    obtain ⟨-, e⟩ | ⟨-, e⟩ := execCmov_cases ra rb rc s <;> cases e.symm.trans h
    · exact .inl rfl
    · exact .inr ⟨ra, _, rfl, rfl⟩
  | load ra rb rc =>
    obtain ⟨code, -, e⟩ | ⟨w, -, e⟩ := execLoad_cases ra rb rc s <;> cases e.symm.trans h
    · exact .inl rfl
    · exact .inr ⟨ra, w, rfl, rfl⟩
  | store ra rb rc =>
    obtain ⟨code, -, e⟩ | ⟨m, -, e⟩ := execStore_cases ra rb rc s <;> cases e.symm.trans h <;> exact .inl rfl
  | add ra rb rc | mul ra rb rc | nand ra rb rc | li ra imm =>
    cases h
    exact .inr ⟨ra, _, rfl, rfl⟩
  | div ra rb rc =>
    obtain ⟨-, e⟩ | ⟨-, q, -, e⟩ := execDiv_cases ra rb rc s <;> cases e.symm.trans h
    · exact .inl rfl
    · exact .inr ⟨ra, q, rfl, rfl⟩
  | halt =>
    cases h
    exact .inl rfl
  | map rb rc =>
    obtain ⟨code, -, e⟩ | ⟨id, m, -, e⟩ := execMap_cases rb rc s <;> cases e.symm.trans h
    · exact .inl rfl
    · exact .inr ⟨rb, id, rfl, rfl⟩
  | unmap rc =>
    obtain ⟨code, -, e⟩ | ⟨m, -, e⟩ := execUnmap_cases rc s <;> cases e.symm.trans h <;> exact .inl rfl
  | out rc =>
    obtain ⟨-, e⟩ | ⟨-, e⟩ := execOut_cases rc s <;> cases e.symm.trans h <;> exact .inl rfl
  | inp rc =>
    obtain ⟨-, e⟩ | ⟨item, -, e⟩ := execIn_cases rc s <;> cases e.symm.trans h
    exact .inr ⟨rc, _, rfl, rfl⟩
  | loadp rb rc =>
    obtain ⟨code, -, e⟩ | ⟨m, -, e⟩ := execLoadp_cases rb rc s <;> cases e.symm.trans h <;> exact .inl rfl

theorem State.reg_congr {s t : State} (h : t.regs = s.regs) (r : Reg) : t.reg r = s.reg r := by
  simp only [State.reg, h]

theorem exec_reg_of_not_written {i : Instr} {s t : State} (h : exec i s = .next t) {r : Reg} (hr : writesOf i ≠ some r) :
    t.reg r = s.reg r := by
  obtain e | ⟨d, v, hd, e⟩ := exec_regs_cases h
  · exact State.reg_congr e r
  · have hne : r ≠ d := fun hrd => hr (hrd ▸ hd)
    rw [State.reg_congr e, State.reg_setReg_of_ne s v hne]

/-- In status Running only a fault of the instruction ends in Faulted, so what it did is fault entry. -/
theorem exec_faulted_eq {i : Instr} {s t : State} (h : exec i s = .next t) (hs : s.status = .running)
    (ht : t.status = .faulted) : ∃ code, t = s.faultEntry code := by
  obtain ⟨code, e, -⟩ | hc := exec_next_cases h
  · exact ⟨code, e⟩
  · exact absurd (hc.status.symm.trans ht) (statusAfter_ne_faulted i hs)

/-- Settles O35: fault entry keeps every register, and a completion writes the named one at most. -/
theorem onlyTheNamedRegisterIsWritten : Obligations.OnlyTheNamedRegisterIsWritten := by
  intro i s t h
  refine ⟨fun r hr => exec_reg_of_not_written h hr, fun hs ht r => ?_⟩
  obtain ⟨code, rfl⟩ := exec_faulted_eq h hs ht
  exact s.reg_faultEntry code r

/-! The cases of a step in status Running (40_dispatch.md R122, R123, R125, R130) -/

theorem step_of_fetch_error {s : State} {code : FaultCode} (hs : s.status = .running)
    (hf : s.mem.fetch s.pc = .error code) : step s = .next (s.faultEntry code) := by
  rw [step_eq_of_running hs]
  simp [runCycle, hf, raise_eq]

theorem step_of_decode_ok {s : State} {w : Word} {i : Instr} (hs : s.status = .running)
    (hf : s.mem.fetch s.pc = .ok w) (hd : decode w = .ok i) : step s = exec i s := by
  rw [step_eq_of_running hs]
  simp [runCycle, hf, hd]

/-- Settles O9: fetch and decode change no state, so the cycle is its third case. -/
theorem stepRunsTheDecodedInstruction : Obligations.StepRunsTheDecodedInstruction :=
  fun _ _ _ => step_of_decode_ok

/-- Settles O11: the step is fault entry in the state of the fetch, which the increment has not reached. -/
theorem invalidOpcodeFaults : Obligations.InvalidOpcodeFaults := by
  intro s w e hs hf hd
  exact ⟨_, step_of_decode_error hs hf hd, faultTaken_faultEntry s .invalidOpcode, rfl, rfl, State.cycleWord_of_ok hf, rfl⟩

/-- A fetch of a live segment 0 is a read of it, which fails only at or past its length (20_memory.md R55). -/
theorem Memory.fetch_of_segment? {m : Memory} {g : Segment} (hg : m.segment? 0 = some g) (pc : Word) :
    (g.len ≤ pc.toNat → m.fetch pc = .error .fetchOutOfBounds) ∧
    (pc.toNat < g.len → ∃ w, g.read? pc.toNat = some w ∧ m.fetch pc = .ok w) := by
  obtain ⟨hn, -⟩ | ⟨g', hg', hle, e⟩ | ⟨g', hg', hlt, e⟩ := m.fetch_cases pc
  · cases hn.symm.trans hg
  · cases hg'.symm.trans hg
    exact ⟨fun _ => e, fun hlt => by omega⟩
  · cases hg'.symm.trans hg
    exact ⟨fun hle => by omega, fun _ => ⟨_, by simp [Segment.read?, hlt], e⟩⟩

/-- Settles O10: the fetch fails at or past the length, and the word of a cycle whose fetch failed is 0. -/
theorem fetchOutOfBoundsFaults : Obligations.FetchOutOfBoundsFaults := by
  intro s g hg
  obtain ⟨hpast, hwithin⟩ := Memory.fetch_of_segment? hg s.pc
  refine ⟨fun hs hle => ?_, hwithin⟩
  have hf := hpast hle
  exact ⟨_, step_of_fetch_error hs hf, faultTaken_faultEntry s .fetchOutOfBounds, rfl, State.cycleWord_of_error hf⟩

/-! When there is a step (40_dispatch.md R121) -/

/-- The only instruction that answers no next state is an IN without an answer. -/
theorem exec_next_or_input_hold (i : Instr) (s : State) :
    (∃ t, exec i s = .next t) ∨ ∃ rc, i = .inp rc ∧ s.inputAnswer = none := by
  cases i with
  | cmov ra rb rc => obtain ⟨-, e⟩ | ⟨-, e⟩ := execCmov_cases ra rb rc s <;> exact .inl ⟨_, e⟩
  | load ra rb rc => obtain ⟨_, -, e⟩ | ⟨_, -, e⟩ := execLoad_cases ra rb rc s <;> exact .inl ⟨_, e⟩
  | store ra rb rc => obtain ⟨_, -, e⟩ | ⟨_, -, e⟩ := execStore_cases ra rb rc s <;> exact .inl ⟨_, e⟩
  | add ra rb rc | mul ra rb rc | nand ra rb rc | halt | li ra imm => exact .inl ⟨_, rfl⟩
  | div ra rb rc => obtain ⟨-, e⟩ | ⟨-, _, -, e⟩ := execDiv_cases ra rb rc s <;> exact .inl ⟨_, e⟩
  | map rb rc => obtain ⟨_, -, e⟩ | ⟨_, _, -, e⟩ := execMap_cases rb rc s <;> exact .inl ⟨_, e⟩
  | unmap rc => obtain ⟨_, -, e⟩ | ⟨_, -, e⟩ := execUnmap_cases rc s <;> exact .inl ⟨_, e⟩
  | out rc => obtain ⟨-, e⟩ | ⟨-, e⟩ := execOut_cases rc s <;> exact .inl ⟨_, e⟩
  | inp rc =>
    obtain ⟨ha, -⟩ | ⟨_, -, e⟩ := execIn_cases rc s
    · exact .inr ⟨rc, rfl, ha⟩
    · exact .inl ⟨_, e⟩
  | loadp rb rc => obtain ⟨_, -, e⟩ | ⟨_, -, e⟩ := execLoadp_cases rb rc s <;> exact .inl ⟨_, e⟩

theorem step_next_or_holds {s : State} (hs : s.status = .running) : (∃ t, step s = .next t) ∨ Holds s := by
  rw [step_eq_of_running hs]
  obtain ⟨code, -, e⟩ | ⟨w, err, -, -, e⟩ | ⟨w, i, hf, hd, e⟩ := runCycle_cases s
  · exact .inl ⟨_, e⟩
  · exact .inl ⟨_, e⟩
  · obtain ⟨t, ht⟩ | ⟨rc, rfl, ha⟩ := exec_next_or_input_hold i s
    · exact .inl ⟨t, e.trans ht⟩
    · exact .inr ⟨w, rc, hf, hd, ha⟩

theorem step_of_holds {s : State} (hs : s.status = .running) (h : Holds s) : step s = .fault .inputHold := by
  obtain ⟨w, rc, hf, hd, ha⟩ := h
  rw [step_of_decode_ok hs hf hd]
  simp [execIn, ha]

theorem step_of_halted {s : State} (hs : s.status = .halted) : step s = .fault .halted := by
  simp [step, stepCycle, hs]

theorem step_of_faulted {s : State} (hs : s.status = .faulted) : step s = .fault .faulted := by
  simp [step, stepCycle, hs]

/-- Settles O14: each status, and in Running the hold or its absence, fixes the answer. -/
theorem stepExactlyWhenRunningAndNotHolding : Obligations.StepExactlyWhenRunningAndNotHolding := by
  intro s
  cases hs : s.status with
  | running =>
    by_cases hh : Holds s
    · simp [step_of_holds hs hh, hh]
    · obtain ⟨t, ht⟩ := (step_next_or_holds hs).resolve_right hh
      simp [ht, hh]
  | halted => simp [step_of_halted hs]
  | faulted => simp [step_of_faulted hs]

end Sys2Proof.Machine
end

section
/-! The move and arithmetic family of 41_move_and_arith.md. CMOV, ADD, MUL, DIV and NAND write one word back to `x[ra]`, or
fault; so the frame is said once, of write-back, and each instruction adds the word it writes. -/

namespace Sys2Proof.Machine

/-- What an instruction that answers with a write-back of `v` to `x[d]` does, and what it leaves unchanged (40_dispatch.md
R124, R127, R128). -/
theorem exec_frame_of_writeBack {i : Instr} {s : State} {d : Reg} {v : Word} (h : exec i s = writeBack s d v) :
    ∃ t, exec i s = .next t ∧ t.reg d = v ∧ SameRegsBut d s t ∧
      NextInSequence s t ∧ Retires s t ∧ SameMemory s t ∧ SameStreams s t :=
  ⟨_, h.trans (writeBack_eq s d v), by simp, fun r hr => by simp [hr], nextInSequence_of_pc_eq rfl,
    retires_retire rfl ⟨rfl, rfl⟩ ⟨rfl, rfl⟩, State.sameMemory_of_eq rfl, rfl, rfl⟩

/-- CMOV is a write-back whatever the condition: when it is 0, of `x[ra]` to itself. -/
theorem exec_cmov_eq_writeBack (ra rb rc : Reg) (s : State) :
    exec (.cmov ra rb rc) s = writeBack s ra (if s.reg rc = 0 then s.reg ra else s.reg rb) := by
  obtain ⟨hz : s.reg rc = 0, e⟩ | ⟨hnz : s.reg rc ≠ 0, e⟩ := execCmov_cases ra rb rc s
  · rw [exec_cmov, e, if_pos hz, writeBack_eq, ← State.reg_advance, State.setReg_reg]
  · rw [exec_cmov, e, if_neg hnz, writeBack_eq]

/-- Settles O19: the divisor decides between the write-back of the quotient and fault entry. -/
theorem divResult : Obligations.DivResult := by
  intro ra rb rc s
  refine ⟨toNat_encRrr 5 ra rb rc, ?_⟩
  obtain ⟨hz, e⟩ | ⟨hnz, q, hq, e⟩ := execDiv_cases ra rb rc s
  · exact ⟨fun hnz => absurd hz hnz, fun _ => ⟨_, e, faultTaken_faultEntry s .divideByZero⟩⟩
  · obtain ⟨t, ht, hreg, hframe⟩ := exec_frame_of_writeBack (i := .div ra rb rc) e
    exact ⟨fun _ => ⟨t, ht, by rw [hreg, hq], hframe⟩, fun hz => absurd hz hnz⟩

/-- Settles O16: the word written back is `x[rb]` or, when the condition is 0, `x[ra]` itself. -/
theorem cmovResult : Obligations.CmovResult := fun ra rb rc s =>
  ⟨toNat_encRrr 0 ra rb rc, exec_frame_of_writeBack (exec_cmov_eq_writeBack ra rb rc s)⟩

/-- Settles O17: the word written back is the ALU's sum. -/
theorem addResult : Obligations.AddResult := by
  intro ra rb rc s
  obtain ⟨t, ht, hreg, hframe⟩ := exec_frame_of_writeBack (exec_add ra rb rc s)
  exact ⟨toNat_encRrr 3 ra rb rc, t, ht, by rw [hreg, Alu.toNat_add], hframe⟩

/-- Settles O18: the word written back is the low half of the ALU's product. -/
theorem mulResult : Obligations.MulResult := by
  intro ra rb rc s
  obtain ⟨t, ht, hreg, hframe⟩ := exec_frame_of_writeBack (exec_mul ra rb rc s)
  exact ⟨toNat_encRrr 4 ra rb rc, t, ht, by rw [hreg, Alu.toNat_mul], hframe⟩

/-- Settles O20: the word written back is the ALU's NAND, read bit by bit. -/
theorem nandResult : Obligations.NandResult := by
  intro ra rb rc s
  obtain ⟨t, ht, hreg, hframe⟩ := exec_frame_of_writeBack (exec_nand ra rb rc s)
  exact ⟨toNat_encRrr 6 ra rb rc, t, ht, fun k hk => by rw [hreg, Alu.getLsbD_nand _ _ k hk], hframe⟩

end Sys2Proof.Machine
end

section
/-! The segment access family of 42_segment_access.md. One check decides both instructions: STORE faults exactly where a
LOAD of the same address would, so which fault it is, is said once, of the read. -/

namespace Sys2Proof.Machine

/-! Where an access faults and where it succeeds (20_memory.md R53, R54; 60_exceptions.md R224) -/

section
variable {m : Memory} {id off : Word} {g : Segment}

theorem Memory.memRead_of_not_live (hnone : m.segment? id = none) (off : Word) :
    m.memRead id off = .error .segmentNotLive := by
  simp [Memory.memRead, hnone]

theorem Memory.memRead_of_len_le (hg : m.segment? id = some g) (hoff : g.len ≤ off.toNat) :
    m.memRead id off = .error .offsetOutOfBounds := by
  simp [Memory.memRead, hg, Segment.read?, Nat.not_lt.mpr hoff]

theorem Memory.memRead_of_read? (hg : m.segment? id = some g) {w : Word} (hw : g.read? off.toNat = some w) :
    m.memRead id off = .ok w := by
  simp [Memory.memRead, hg, hw]

theorem Memory.memWrite_of_lt_len (hg : m.segment? id = some g) (hoff : off.toNat < g.len) (v : Word) :
    m.memWrite id off v = .ok (m.setSlot id (.live (g.write off.toNat v))) := by
  simp [Memory.memWrite, hg, hoff]

/-- The fault conditions of a write are those of a read (42_segment_access.md R161). -/
theorem Memory.memWrite_of_memRead_error {code : FaultCode} (h : m.memRead id off = .error code) (v : Word) :
    m.memWrite id off v = .error code := by
  obtain ⟨hnone, e⟩ | ⟨g, hg, hoff, e⟩ | ⟨g, -, -, e⟩ := m.memRead_cases id off <;> cases e.symm.trans h
  · simp [Memory.memWrite, hnone]
  · simp [Memory.memWrite, hg, Nat.not_lt.mpr hoff]

end

/-! The two instructions by the answer of the memory manager (42_segment_access.md R160, R161) -/

theorem exec_load_faultTaken {ra rb rc : Reg} {s : State} {code : FaultCode}
    (h : s.mem.memRead (s.reg rb) (s.reg rc) = .error code) :
    ∃ t, exec (.load ra rb rc) s = .next t ∧ FaultTaken code s t :=
  ⟨_, by simp [execLoad, h, raise_eq], faultTaken_faultEntry s code⟩

theorem exec_store_faultTaken {ra rb rc : Reg} {s : State} {code : FaultCode}
    (h : s.mem.memRead (s.reg ra) (s.reg rb) = .error code) :
    ∃ t, exec (.store ra rb rc) s = .next t ∧ FaultTaken code s t :=
  ⟨_, by simp [execStore, Memory.memWrite_of_memRead_error h, raise_eq], faultTaken_faultEntry s code⟩

theorem exec_store_of_memWrite {ra rb rc : Reg} {s : State} {m : Memory}
    (h : s.mem.memWrite (s.reg ra) (s.reg rb) (s.reg rc) = .ok m) :
    exec (.store ra rb rc) s = .next (s.advance.setMem m).retire := by
  simp [execStore, h, complete_eq]

/-- Settles O21: the read answers a fault of its own or the word that is written back. -/
theorem loadResult : Obligations.LoadResult := by
  intro ra rb rc s
  refine ⟨toNat_encRrr 1 ra rb rc,
    fun hnone => exec_load_faultTaken (Memory.memRead_of_not_live hnone _),
    fun g hg hoff => exec_load_faultTaken (Memory.memRead_of_len_le hg hoff), fun g hg hoff => ?_⟩
  have hw : g.read? (s.reg rc).toNat = some (cellAt g.cells (s.reg rc).toNat) := if_pos hoff
  have hload := execLoad_of_memRead (ra := ra) (Memory.memRead_of_read? hg hw)
  obtain ⟨t, ht, hreg, hframe⟩ := exec_frame_of_writeBack (hload.trans (writeBack_eq s ra _).symm)
  exact ⟨t, ht, by rw [hreg, hw], hframe⟩

/-- Settles O22: the write that succeeds replaces slot `x[ra]` by the segment with one word changed, so the length, the pool
and the table stay, and what reads back is what a write and a read after it give. -/
theorem storeResult : Obligations.StoreResult := by
  intro ra rb rc s hwf
  refine ⟨toNat_encRrr 2 ra rb rc,
    fun hnone => exec_store_faultTaken (Memory.memRead_of_not_live hnone _),
    fun g hg hoff => exec_store_faultTaken (Memory.memRead_of_len_le hg hoff), fun g hg hoff => ?_⟩
  have hwrite := Memory.memWrite_of_lt_len hg hoff (s.reg rc)
  exact ⟨_, exec_store_of_memWrite hwrite, Memory.memRead_memWrite_self hwf hwrite,
    fun _ _ hne => Memory.memRead_memWrite_of_ne hwrite hne,
    ⟨_, Memory.segment?_setSlot_self (Memory.lt_of_segment? hg) _, Segment.len_write g _ _⟩,
    Memory.pool_setSlot _ _ _, Memory.tableSize_setSlot _ _ _,
    fun _ => rfl, nextInSequence_of_pc_eq rfl, retires_retire rfl ⟨rfl, rfl⟩ ⟨rfl, rfl⟩, rfl, rfl⟩

end Sys2Proof.Machine
end

section
/-! The control family of 43_halt_and_load_program.md. HALT is the one completion that sets the run status, so a step that
ends in Halted decoded it; what LOADP does to memory is what the program load of its source segment does. -/

namespace Sys2Proof.Machine

/-! Which instruction ends a run (43_halt_and_load_program.md R170) -/

/-- A word that decodes to HALT has opcode 7. -/
theorem opcode_of_decode_halt {w : Word} (h : decode w = .ok .halt) : w.toNat / 2 ^ 28 = 7 := by
  have hop : (7 : BitVec 4) = fieldOp w := (decode_eq_ok_iff.mp h).1
  rw [← toNat_fieldOp, ← hop]
  rfl

theorem eq_halt_of_statusAfter_eq_halted {i : Instr} {s : State} (hs : s.status = .running)
    (h : statusAfter i s = .halted) : i = .halt := by
  cases i with
  | halt => rfl
  | _ => cases hs.symm.trans h

/-- A step that ends in Halted took no fault, so it completed an instruction, and only HALT sets that status. -/
theorem step_halted_decodes_halt {s t : State} (h : step s = .next t) (ht : t.status = .halted) :
    ∃ w, s.mem.fetch s.pc = .ok w ∧ decode w = .ok .halt := by
  obtain ⟨code, rfl⟩ | ⟨w, i, hf, hd, hc⟩ := step_next_cases h
  · cases ht
  · cases eq_halt_of_statusAfter_eq_halted (running_of_step_next h) (hc.status.symm.trans ht)
    exact ⟨w, hf, hd⟩

theorem exec_halt_next (s : State) : exec .halt s = .next (s.advance.setStatus .halted).retire := rfl

/-- Settles O23: the state HALT answers has no step, and a step into Halted fetched a word that decodes to HALT. -/
theorem haltResult : Obligations.HaltResult := by
  refine ⟨rfl, fun w hop => decode_of_opcode (i := .halt) hop trivial, fun s => ⟨_, exec_halt_next s, rfl, rfl,
    fun u hu => ?_, rfl, fun _ => rfl, nextInSequence_of_pc_eq rfl, by simp [Counted, BitVec.toNat_add],
    State.sameMemory_of_eq rfl, ⟨rfl, rfl⟩, ⟨rfl, rfl⟩, fun s' t' h ht => ?_⟩⟩
  · cases (running_of_step_next hu : Status.halted = .running)
  · obtain ⟨w, hf, hd⟩ := step_halted_decodes_halt h ht
    exact ⟨w, hf, opcode_of_decode_halt hd⟩

/-! Loading a program (20_memory.md R60, 43_halt_and_load_program.md R171) -/

section
variable {m : Memory} {id : Word}

theorem Memory.segLoadProgram_of_not_live (h : m.segment? id = none) : m.segLoadProgram id = .error .segmentNotLive := by
  simp [Memory.segLoadProgram, h]

theorem Memory.segLoadProgram_of_segment? {g : Segment} (h : m.segment? id = some g) :
    m.segLoadProgram id = .ok (m.setSlot 0#32 (.live g)) := by
  simp [Memory.segLoadProgram, h]

end

theorem exec_loadp_faultTaken {rb rc : Reg} {s : State} {code : FaultCode}
    (h : s.mem.segLoadProgram (s.reg rb) = .error code) :
    ∃ t, exec (.loadp rb rc) s = .next t ∧ FaultTaken code s t :=
  ⟨_, by simp [execLoadp, h, raise_eq], faultTaken_faultEntry s code⟩

/-- Settles O28: the program load fixes every segment after LOADP, loading segment 0 onto itself changes nothing, and the
target is first compared with the new length by the fetch of the next cycle. -/
theorem loadpResult : Obligations.LoadpResult := by
  intro rb rc s hwf
  refine ⟨toNat_encRrr 12 0 rb rc,
    fun hnone => exec_loadp_faultTaken (Memory.segLoadProgram_of_not_live hnone), fun g hg => ?_⟩
  have hload := Memory.segLoadProgram_of_segment? hg
  obtain ⟨hprogram, hpool, hsize, hother⟩ := Memory.segLoadProgram_segment? hwf hload
  refine ⟨_, execLoadp_of_segLoadProgram hload, rfl, hprogram.trans hg, fun off => ?_,
    fun id hne off => Memory.memRead_congr (hother id hne) off, fun hz => ?_, hpool, hsize, fun _ => rfl,
    retires_retire rfl ⟨rfl, rfl⟩ ⟨rfl, rfl⟩, ⟨rfl, rfl⟩, fun hs hle => ?_⟩
  · simp [Memory.memRead, hprogram]
  · rw [hz] at hload
    exact Except.ok.inj (hload.symm.trans (Memory.segLoadProgram_zero hwf))
  · have hfetch := (Memory.fetch_of_segment? (hprogram.trans hg) (s.reg rc)).1 hle
    exact ⟨_, step_of_fetch_error hs hfetch, faultTaken_faultEntry _ .fetchOutOfBounds⟩

end Sys2Proof.Machine
end

section
/-! The segment allocation family of 44_segment_alloc.md. MAP and UNMAP add to the answer of the memory manager only the
identifier written back and the frame, so what each request answers and how it changes the table is said of the request. -/

namespace Sys2Proof.Machine

/-! What an allocation answers, and the table after it (20_memory.md R56, R58) -/

section
variable {m m' : Memory} {granted : Bool} {id size : Word}

/-- The two reasons for which an allocation fails (20_memory.md R58). -/
theorem Memory.segAlloc_of_refused (h : granted = false ∨ (m.pool = [] ∧ m.tableSize = 2 ^ 32)) (size : Word) :
    m.segAlloc granted size = .error .allocFailed := by
  obtain rfl | ⟨hpool, hfull⟩ := h
  · rfl
  · simp [Memory.segAlloc, hpool, hfull, Config.maxSlots]

/-- Reusing an identifier takes no new slot. -/
theorem Memory.tableSize_segAlloc_of_pool_cons {rest : List Word} (hpool : m.pool = id :: rest)
    (he : m.segAlloc granted size = .ok (id, m')) : m'.tableSize = m.tableSize := by
  obtain ⟨-, e⟩ | ⟨_, _, -, -, e⟩ | ⟨-, hnil, -, -⟩ := m.segAlloc_cases granted size
  · cases e.symm.trans he
  · cases e.symm.trans he
    exact Memory.tableSize_setSlot _ _ _
  · cases hpool.symm.trans hnil

/-! What a deallocation answers (20_memory.md R59) -/

theorem Memory.segFree_zero (m : Memory) : m.segFree 0 = .error .freeProgramSegment := rfl

theorem Memory.segFree_of_not_live (hnz : id ≠ 0#32) (hnone : m.segment? id = none) :
    m.segFree id = .error .freeNotLive := by
  simp [Memory.segFree, hnz, hnone]

theorem Memory.segFree_of_segment? {g : Segment} (hnz : id ≠ 0#32) (hg : m.segment? id = some g) :
    m.segFree id = .ok { m.setSlot id .free with pool := id :: m.pool } := by
  simp [Memory.segFree, hnz, hg]

end

/-! MAP and UNMAP by the answer of the memory manager (44_segment_alloc.md R180, R181) -/

section
variable {rb rc : Reg} {s : State}

theorem exec_map_faultTaken {code : FaultCode}
    (h : s.mem.segAlloc (s.allocOracle (s.reg rc)) (s.reg rc) = .error code) :
    ∃ t, exec (.map rb rc) s = .next t ∧ FaultTaken code s t :=
  ⟨_, by simp [execMap, h, raise_eq], faultTaken_faultEntry s code⟩

/-- What an allocation that succeeds has done to the segments, seen from the states around it. -/
theorem newSegment_of_segAlloc {t : State} {granted : Bool} {id size : Word} (hwf : s.mem.wf = true)
    (h : s.mem.segAlloc granted size = .ok (id, t.mem)) : NewSegment id size s t := by
  obtain ⟨hne, hnone, hzeros, hother⟩ := Memory.segAlloc_segment? hwf h
  exact ⟨hne, by simp [Memory.isLive, hnone], by simp [Memory.isLive, hzeros],
    fun _ ho => Memory.memRead_of_segment?_zeros hzeros ho, fun _ ho => Memory.memRead_of_len_le hzeros ho,
    fun id' hid off => Memory.memRead_congr (hother id' hid) off⟩

/-- What MAP does when the memory manager answers an identifier, and what it leaves unchanged. -/
theorem exec_map_frame {id : Word} {m : Memory} (hwf : s.mem.wf = true)
    (h : s.mem.segAlloc (s.allocOracle (s.reg rc)) (s.reg rc) = .ok (id, m)) :
    ∃ t, exec (.map rb rc) s = .next t ∧ t.reg rb = id ∧ t.mem = m ∧ NewSegment id (s.reg rc) s t ∧
      SameRegsBut rb s t ∧ NextInSequence s t ∧ Retires s t ∧ SameStreams s t :=
  ⟨_, execMap_of_segAlloc h, by simp, rfl, newSegment_of_segAlloc hwf h, fun r hr => by simp [hr],
    nextInSequence_of_pc_eq rfl, retires_retire rfl ⟨rfl, rfl⟩ ⟨rfl, rfl⟩, rfl, rfl⟩

theorem exec_unmap_faultTaken {code : FaultCode} (h : s.mem.segFree (s.reg rc) = .error code) :
    ∃ t, exec (.unmap rc) s = .next t ∧ FaultTaken code s t :=
  ⟨_, by simp [execUnmap, h, raise_eq], faultTaken_faultEntry s code⟩

theorem exec_unmap_of_segFree {m : Memory} (h : s.mem.segFree (s.reg rc) = .ok m) :
    exec (.unmap rc) s = .next (s.advance.setMem m).retire := by
  simp [execUnmap, h, complete_eq]

end

/-- Settles O24: the oracle, the pool and the table size decide what the allocation answers, and MAP writes the identifier
back. -/
theorem mapResult : Obligations.MapResult := by
  intro rb rc s hwf
  refine ⟨toNat_encRrr 8 0 rb rc, fun h => exec_map_faultTaken (Memory.segAlloc_of_refused h _),
    fun id rest hgranted hpool => ?_, fun hgranted hpool hn => ?_⟩
  · obtain ⟨m, halloc, hpool'⟩ := Memory.segAlloc_of_pool_cons hpool (s.reg rc)
    have hsize := Memory.tableSize_segAlloc_of_pool_cons hpool halloc
    rw [← hgranted] at halloc
    obtain ⟨t, ht, hreg, rfl, hnew, hframe⟩ := exec_map_frame (rb := rb) hwf halloc
    exact ⟨t, ht, hreg, hnew, hpool', hsize, hframe⟩
  · obtain ⟨m, halloc, hpool', hsize⟩ := Memory.segAlloc_of_pool_nil hpool hn (s.reg rc)
    rw [← hgranted] at halloc
    obtain ⟨t, ht, hreg, rfl, hnew, hframe⟩ := exec_map_frame (rb := rb) hwf halloc
    have hid : (t.reg rb).toNat = s.mem.tableSize := by
      rw [hreg, BitVec.toNat_ofNat, Nat.mod_eq_of_lt hn]
    exact ⟨t, ht, hid, hreg ▸ hnew, hpool', hsize, hframe⟩

/-- Settles O25: the identifier decides what the deallocation answers, and UNMAP writes no register. -/
theorem unmapResult : Obligations.UnmapResult := by
  intro rc s
  refine ⟨toNat_encRrr 9 0 0 rc, fun hz => exec_unmap_faultTaken (hz ▸ Memory.segFree_zero s.mem),
    fun hnz hnone => exec_unmap_faultTaken (Memory.segFree_of_not_live hnz hnone), fun g hnz hg => ?_⟩
  have hfree := Memory.segFree_of_segment? hnz hg
  obtain ⟨-, -, hnone, hpool, hsize, hother⟩ := Memory.segFree_segment? hfree
  exact ⟨_, exec_unmap_of_segFree hfree, by simp [Memory.isLive, hnone], Memory.memRead_of_not_live hnone, hpool, hsize,
    fun id hne off => Memory.memRead_congr (hother id hne) off, fun _ => rfl, nextInSequence_of_pc_eq rfl,
    retires_retire rfl ⟨rfl, rfl⟩ ⟨rfl, rfl⟩, rfl, rfl⟩

end Sys2Proof.Machine
end

section
/-! The input and output family of 45_io.md. OUT emits a byte only after its range check, and IN writes back the host's answer;
what IN does with one is said once for every item, and the input source then fixes the answer. -/

namespace Sys2Proof.Machine

/-- The host's answer is the next item, or what the closing bit says past the items (92_eei_decisions.md D13). -/
theorem State.inputAnswer_eq_or (s : State) :
    s.inputAnswer = s.input.items[s.inputPos]?.or (if s.input.closed then some .endOfStream else none) := by
  unfold State.inputAnswer
  cases s.input.items[s.inputPos]? <;> rfl

/-! IN by the host's answer (45_io.md R191) -/

section
variable {rc : Reg} {s : State}

/-- What IN does with an item, and what it leaves unchanged. -/
theorem exec_inp_frame {item : InputItem} (h : s.inputAnswer = some item) :
    ∃ t, exec (.inp rc) s = .next t ∧ t.reg rc = inputWord item ∧ SameRegsBut rc s t ∧ t.inputPos = s.inputPos + 1 ∧
      t.output = s.output ∧ NextInSequence s t ∧ Retires s t ∧ SameMemory s t := by
  obtain ⟨hnone, -⟩ | ⟨item', hitem, e⟩ := execIn_cases rc s
  · cases hnone.symm.trans h
  · cases hitem.symm.trans h
    exact ⟨_, e, by simp, fun r hr => by simp [hr], rfl, rfl, nextInSequence_of_pc_eq rfl,
      retires_retire rfl ⟨rfl, rfl⟩ ⟨rfl, rfl⟩, State.sameMemory_of_eq rfl⟩

theorem exec_inp_holds (h : s.inputAnswer = none) : exec (.inp rc) s = .fault .inputHold := by
  obtain ⟨-, e⟩ | ⟨item, hitem, -⟩ := execIn_cases rc s
  · exact e
  · cases h.symm.trans hitem

end

/-- Settles O26: the range check decides, and the low byte of a value that passes it is the value. -/
theorem outResult : Obligations.OutResult := by
  intro rc s
  refine ⟨toNat_encRrr 10 0 0 rc, ?_⟩
  obtain ⟨habove, e⟩ | ⟨hbyte, e⟩ := execOut_cases rc s
  · exact ⟨fun _ => ⟨_, e, faultTaken_faultEntry s .outputRange⟩, fun hle => by omega⟩
  · have hlow : ((s.reg rc).setWidth 8).toNat = (s.reg rc).toNat := by
      rw [BitVec.toNat_setWidth, Nat.mod_eq_of_lt (by omega)]
    exact ⟨fun hgt => by omega, fun _ => ⟨_, _, e, hlow, rfl, rfl, fun _ => rfl, nextInSequence_of_pc_eq rfl,
      retires_retire rfl ⟨rfl, rfl⟩ ⟨rfl, rfl⟩, State.sameMemory_of_eq rfl⟩⟩

/-- Settles O27: the input source fixes the host's answer, and the answer the word IN writes, or the hold. -/
theorem inResult : Obligations.InResult := by
  intro rc s
  refine ⟨toNat_encRrr 11 0 0 rc, fun b hb => ?_, fun hend => ?_, fun hnone hopen => ?_⟩
  · have hanswer : s.inputAnswer = some (.byte b) := by simp [State.inputAnswer_eq_or, hb]
    obtain ⟨t, ht, hreg, hframe⟩ := exec_inp_frame (rc := rc) hanswer
    exact ⟨t, ht, by rw [hreg, toNat_inputWord_byte], hframe⟩
  · have hanswer : s.inputAnswer = some .endOfStream := by
      obtain hitem | ⟨hnone, hclosed⟩ := hend
      · simp [State.inputAnswer_eq_or, hitem]
      · simp [State.inputAnswer_eq_or, hnone, hclosed]
    exact exec_inp_frame hanswer
  · exact exec_inp_holds (by simp [State.inputAnswer_eq_or, hnone, hopen])

end Sys2Proof.Machine
end

section
/-! The load immediate family of 46_load_immediate.md. LI is a write-back of a word of the instruction itself, so its frame is
the one of write-back, and the zero extension is in the decoder's field. -/

namespace Sys2Proof.Machine

/-- Settles O29: opcode 13 decodes to LI of its two fields, and the word written back is the immediate. -/
theorem liResult : Obligations.LiResult := by
  constructor
  · intro w hop
    have hd : decode w = .ok (.li (fieldRaRi w) (fieldImm w)) := decode_of_opcode hop ⟨rfl, rfl⟩
    exact ⟨_, _, hd, toNat_fieldRaRi w, toNat_fieldImm w⟩
  · intro ra imm s himm
    exact ⟨toNat_encRi ra (Nat.lt_succ_of_le himm), exec_frame_of_writeBack (exec_li ra imm s)⟩

end Sys2Proof.Machine
end

section
/-! The exception family of 60_exceptions.md. A step that ends in Faulted is fault entry, so what it left unchanged is said of
fault entry; which causes it can record is said of each request of the memory manager that can be refused; and a held IN waits
for the input source alone, so the host's answer is all that its step depends on. -/

namespace Sys2Proof.Machine

/-! A step that ends in Faulted (60_exceptions.md R226) -/

/-- Only fault entry sets the status Faulted: an instruction that completes in status Running leaves another. -/
theorem step_faulted_eq {s t : State} (h : step s = .next t) (ht : t.status = .faulted) : ∃ code, t = s.faultEntry code := by
  obtain ⟨code, e⟩ | ⟨w, i, -, -, hc⟩ := step_next_cases h
  · exact ⟨code, e⟩
  · exact absurd (hc.status.symm.trans ht) (statusAfter_ne_faulted i (running_of_step_next h))

/-- Settles O30: fault entry is the fault taken for its code. -/
theorem faultsArePrecise : Obligations.FaultsArePrecise := by
  intro s t h ht
  obtain ⟨code, rfl⟩ := step_faulted_eq h ht
  exact ⟨code, faultTaken_faultEntry s code⟩

/-! The end of a run (60_exceptions.md R228, R229) -/

/-- Settles O51: HALT's step is counted, a faulting one records the code and `pc` of its fault entry, and either status is
terminal. -/
theorem runEndsInSuccessOrRecordedFault : Obligations.RunEndsInSuccessOrRecordedFault := by
  intro s t e _ h he
  have hterminal (hne : t.status ≠ .running) : ∀ u, step t ≠ .next u := (haltedAndFaultedAreTerminal t hne).1
  cases hs : t.status with
  | running => simp [State.runEnd, hs] at he
  | halted =>
    have hend : e = .success t.icount := by simpa [State.runEnd, hs] using he.symm
    have hcounted : Counted s t := (icountCountsRetirements s t h).2 (by simp [hs])
    exact ⟨hterminal (by simp [hs]), .inl ⟨hend, rfl, hcounted⟩⟩
  | faulted =>
    have hend : e = .abnormal t.fault := by simpa [State.runEnd, hs] using he.symm
    obtain ⟨code, rfl⟩ := step_faulted_eq h hs
    obtain ⟨hlow, hhigh⟩ := code.code_bounds
    exact ⟨hterminal (by simp), .inr ⟨hend, hlow, hhigh, rfl⟩⟩

/-! Why a request of the memory manager was refused (20_memory.md R53 to R60; 60_exceptions.md R222) -/

/-- The conditions of causes 3 and 4 for an access to offset `off` of segment `id` (60_exceptions.md R222, R224). -/
def AccessFault (m : Memory) (id off : Word) (cause : BitVec 4) : Prop :=
  (cause = 3 ∧ m.isLive id = false) ∨ (cause = 4 ∧ ∃ g, m.segment? id = some g ∧ g.len ≤ off.toNat)

section
variable {m : Memory} {id off : Word} {code : FaultCode}

theorem Memory.isLive_of_segment?_none (h : m.segment? id = none) : m.isLive id = false := by
  simp [Memory.isLive, h]

theorem Memory.accessFault_of_memRead_error (h : m.memRead id off = .error code) : AccessFault m id off code.code := by
  obtain ⟨hnone, e⟩ | ⟨g, hg, hle, e⟩ | ⟨g, -, -, e⟩ := m.memRead_cases id off <;> cases e.symm.trans h
  · exact .inl ⟨rfl, Memory.isLive_of_segment?_none hnone⟩
  · exact .inr ⟨rfl, g, hg, hle⟩

theorem Memory.accessFault_of_memWrite_error {v : Word} (h : m.memWrite id off v = .error code) :
    AccessFault m id off code.code := by
  obtain ⟨hnone, e⟩ | ⟨g, hg, hle, e⟩ | ⟨g, -, -, e⟩ := m.memWrite_cases id off v <;> cases e.symm.trans h
  · exact .inl ⟨rfl, Memory.isLive_of_segment?_none hnone⟩
  · exact .inr ⟨rfl, g, hg, hle⟩

/-- Under the invariants a table with no room holds exactly 2^32 slots, so an allocation has two reasons to fail. -/
theorem Memory.segAlloc_error {granted : Bool} {size : Word} (hwf : m.wf = true)
    (h : m.segAlloc granted size = .error code) :
    code = .allocFailed ∧ (granted = false ∨ (m.pool = [] ∧ m.tableSize = 2 ^ 32)) := by
  obtain ⟨-, hbound, -⟩ := m.wf_iff.mp hwf
  obtain ⟨hwhy, e⟩ | ⟨_, _, -, -, e⟩ | ⟨-, -, -, e⟩ := m.segAlloc_cases granted size <;> cases e.symm.trans h
  exact ⟨rfl, hwhy.imp_right fun ⟨hpool, hfull⟩ => ⟨hpool, hbound.antisymm hfull⟩⟩

theorem Memory.segFree_error (h : m.segFree id = .error code) :
    (code = .freeProgramSegment ∧ id = 0) ∨ (code = .freeNotLive ∧ id ≠ 0 ∧ m.isLive id = false) := by
  obtain ⟨hz, e⟩ | ⟨hnz, hnone, e⟩ | ⟨g, -, -, e⟩ := m.segFree_cases id <;> cases e.symm.trans h
  · exact .inl ⟨rfl, hz⟩
  · exact .inr ⟨rfl, hnz, Memory.isLive_of_segment?_none hnone⟩

theorem Memory.segLoadProgram_error (h : m.segLoadProgram id = .error code) :
    code = .segmentNotLive ∧ m.isLive id = false := by
  obtain ⟨hnone, e⟩ | ⟨g, -, e⟩ := m.segLoadProgram_cases id <;> cases e.symm.trans h
  exact ⟨rfl, Memory.isLive_of_segment?_none hnone⟩

/-- Segment 0 is always live, so a fetch fails only at or past its length (20_memory.md R51, R55). -/
theorem Memory.len_le_of_fetch_error {pc : Word} (hwf : m.wf = true) (h : m.fetch pc = .error code) :
    ∃ g, m.segment? 0 = some g ∧ g.len ≤ pc.toNat := by
  obtain ⟨⟨g, hg⟩, -⟩ := m.wf_iff.mp hwf
  refine ⟨g, hg, Nat.le_of_not_lt fun hlt => ?_⟩
  obtain ⟨w, -, e⟩ := (Memory.fetch_of_segment? hg pc).2 hlt
  cases e.symm.trans h

end

/-! Why an instruction that ends in Faulted did (60_exceptions.md R222) -/

section
variable {s t : State} {ra rb rc : Reg}

theorem exec_load_faulted (hs : s.status = .running) (h : exec (.load ra rb rc) s = .next t) (ht : t.status = .faulted) :
    AccessFault s.mem (s.reg rb) (s.reg rc) t.fault.cause := by
  obtain ⟨code, he, e⟩ | ⟨w, -, e⟩ := execLoad_cases ra rb rc s <;> cases e.symm.trans h
  · exact Memory.accessFault_of_memRead_error he
  · cases hs.symm.trans ht

theorem exec_store_faulted (hs : s.status = .running) (h : exec (.store ra rb rc) s = .next t) (ht : t.status = .faulted) :
    AccessFault s.mem (s.reg ra) (s.reg rb) t.fault.cause := by
  obtain ⟨code, he, e⟩ | ⟨m, -, e⟩ := execStore_cases ra rb rc s <;> cases e.symm.trans h
  · exact Memory.accessFault_of_memWrite_error he
  · cases hs.symm.trans ht

theorem exec_div_faulted (hs : s.status = .running) (h : exec (.div ra rb rc) s = .next t) (ht : t.status = .faulted) :
    t.fault.cause = 7 ∧ s.reg rc = 0 := by
  obtain ⟨hz, e⟩ | ⟨-, q, -, e⟩ := execDiv_cases ra rb rc s <;> cases e.symm.trans h
  · exact ⟨rfl, hz⟩
  · cases hs.symm.trans ht

theorem exec_map_faulted (hwf : s.mem.wf = true) (hs : s.status = .running) (h : exec (.map rb rc) s = .next t)
    (ht : t.status = .faulted) :
    t.fault.cause = 9 ∧ (s.allocOracle (s.reg rc) = false ∨ (s.mem.pool = [] ∧ s.mem.tableSize = 2 ^ 32)) := by
  obtain ⟨code, he, e⟩ | ⟨id, m, -, e⟩ := execMap_cases rb rc s <;> cases e.symm.trans h
  · obtain ⟨rfl, hwhy⟩ := Memory.segAlloc_error hwf he
    exact ⟨rfl, hwhy⟩
  · cases hs.symm.trans ht

theorem exec_unmap_faulted (hs : s.status = .running) (h : exec (.unmap rc) s = .next t) (ht : t.status = .faulted) :
    (t.fault.cause = 5 ∧ s.reg rc = 0) ∨ (t.fault.cause = 6 ∧ s.reg rc ≠ 0 ∧ s.mem.isLive (s.reg rc) = false) := by
  obtain ⟨code, he, e⟩ | ⟨m, -, e⟩ := execUnmap_cases rc s <;> cases e.symm.trans h
  · obtain ⟨rfl, hz⟩ | ⟨rfl, hnz, hfree⟩ := Memory.segFree_error he
    · exact .inl ⟨rfl, hz⟩
    · exact .inr ⟨rfl, hnz, hfree⟩
  · cases hs.symm.trans ht

theorem exec_out_faulted (hs : s.status = .running) (h : exec (.out rc) s = .next t) (ht : t.status = .faulted) :
    t.fault.cause = 8 ∧ 255 < (s.reg rc).toNat := by
  obtain ⟨habove, e⟩ | ⟨-, e⟩ := execOut_cases rc s <;> cases e.symm.trans h
  · exact ⟨rfl, habove⟩
  · cases hs.symm.trans ht

theorem exec_loadp_faulted (hs : s.status = .running) (h : exec (.loadp rb rc) s = .next t) (ht : t.status = .faulted) :
    t.fault.cause = 3 ∧ s.mem.isLive (s.reg rb) = false := by
  obtain ⟨code, he, e⟩ | ⟨m, -, e⟩ := execLoadp_cases rb rc s <;> cases e.symm.trans h
  · obtain ⟨rfl, hfree⟩ := Memory.segLoadProgram_error he
    exact ⟨rfl, hfree⟩
  · cases hs.symm.trans ht

end

/-- An instruction whose row of R222 names no cause ends in another status. -/
theorem exec_not_faulted {i : Instr} {s t : State} (hi : causesOf i = []) (hs : s.status = .running)
    (h : exec i s = .next t) : t.status ≠ .faulted := by
  intro ht
  cases i with
  | cmov ra rb rc =>
    obtain ⟨-, e⟩ | ⟨-, e⟩ := execCmov_cases ra rb rc s <;> cases e.symm.trans h <;> cases hs.symm.trans ht
  | add ra rb rc | mul ra rb rc | nand ra rb rc | li ra imm =>
    cases h
    cases hs.symm.trans ht
  | halt =>
    cases h
    cases ht
  | inp rc =>
    obtain ⟨-, e⟩ | ⟨item, -, e⟩ := execIn_cases rc s <;> cases e.symm.trans h
    cases hs.symm.trans ht
  | _ => cases hi

/-- Settles O31: a cycle faults at the fetch, at the decoder, or in the instruction, and there each row of R222's table gives
its own condition. -/
theorem faultCausesAreTheTables : Obligations.FaultCausesAreTheTables := by
  intro s t hwf h ht
  have hs := running_of_step_next h
  rw [step_eq_of_running hs] at h
  obtain ⟨code, hf, e⟩ | ⟨w, err, hf, hd, e⟩ | ⟨w, i, hf, hd, e⟩ := runCycle_cases s <;> rw [e] at h
  · cases h
    cases Memory.fetch_error hf
    exact .inl ⟨rfl, Memory.len_le_of_fetch_error hwf hf⟩
  · cases h
    exact .inr ⟨w, hf, .inl ⟨rfl, (decode_eq_error_iff w).mp ⟨err, hd⟩⟩⟩
  · refine .inr ⟨w, hf, .inr ⟨i, hd, ?_⟩⟩
    cases i with
    | load ra rb rc => exact exec_load_faulted hs h ht
    | store ra rb rc => exact exec_store_faulted hs h ht
    | div ra rb rc => exact exec_div_faulted hs h ht
    | map rb rc => exact exec_map_faulted hwf hs h ht
    | unmap rc => exact exec_unmap_faulted hs h ht
    | out rc => exact exec_out_faulted hs h ht
    | loadp rb rc => exact exec_loadp_faulted hs h ht
    | _ => exact exec_not_faulted rfl hs h ht

/-! The host's answer to a held IN (60_exceptions.md R237, 45_io.md R191) -/

/-- The state with another input source, which is all that the host changes when it answers. -/
def State.withInput (s : State) (source : InputSource) : State := { s with input := source }

theorem State.closeInput_eq_withInput (s : State) : s.closeInput = s.withInput { s.input with closed := true } := rfl

section
variable {s : State}

theorem State.supplyInput_eq_withInput (hopen : s.input.closed = false) (item : InputItem) :
    s.supplyInput item = s.withInput { s.input with items := s.input.items ++ [item] } := by
  simp [State.supplyInput, State.withInput, hopen]

/-- Under the input's invariant an IN waits at the end of an open source: every item before has been consumed. -/
theorem State.at_end_of_inputAnswer_none (hwf : s.inputWf = true) (hnone : s.inputAnswer = none) :
    s.input.closed = false ∧ s.inputPos = s.input.items.length := by
  obtain ⟨item, -, e⟩ | ⟨-, -, e⟩ | ⟨hpast, hopen, -⟩ := s.inputAnswer_cases
  · cases e.symm.trans hnone
  · cases e.symm.trans hnone
  · have hle := (s.inputWf_iff.mp hwf).resolve_left (by simp [hopen])
    exact ⟨hopen, hle.antisymm hpast⟩

/-- The item supplied to a waiting IN is its answer. -/
theorem State.inputAnswer_supplyInput (hwf : s.inputWf = true) (hnone : s.inputAnswer = none) (item : InputItem) :
    (s.supplyInput item).inputAnswer = some item := by
  obtain ⟨hopen, hpos⟩ := State.at_end_of_inputAnswer_none hwf hnone
  simp [State.supplyInput_eq_withInput hopen, State.withInput, State.inputAnswer_eq_or, hpos]

/-- Closing the input answers a waiting IN with the end of the stream. -/
theorem State.inputAnswer_closeInput (hnone : s.inputAnswer = none) : s.closeInput.inputAnswer = some .endOfStream := by
  rw [State.inputAnswer_eq_or, Option.or_eq_none_iff] at hnone
  obtain ⟨hitem, -⟩ := hnone
  simp [State.closeInput, State.inputAnswer_eq_or, hitem]

/-- Fetch and decode do not see the input source, so an IN that fetched its word completes once the new source answers. -/
theorem step_withInput_of_inputAnswer {w : Word} {rc : Reg} {source : InputSource} {item : InputItem}
    (hs : s.status = .running) (hf : s.mem.fetch s.pc = .ok w) (hd : decode w = .ok (.inp rc))
    (ha : (s.withInput source).inputAnswer = some item) :
    ∃ t, step (s.withInput source) = .next t ∧ t.reg rc = inputWord item ∧ SameRegsBut rc s t := by
  obtain ⟨t, ht, hreg, hregs, -⟩ := exec_inp_frame (rc := rc) ha
  exact ⟨t, (step_of_decode_ok (s := s.withInput source) hs hf hd).trans ht, hreg, hregs⟩

end

/-- Settles O15: the host's answer stands where the held IN waits, and changes nothing else that its step reads. -/
theorem answerEndsTheWait : Obligations.AnswerEndsTheWait := by
  intro s w rc hhold hf hd hinv
  obtain ⟨-, hholds, -⟩ := stepExactlyWhenRunningAndNotHolding s
  obtain ⟨hs, _, _, -, -, hnone⟩ := hholds.mp hhold
  obtain ⟨-, -, hwf⟩ := s.inv_iff.mp hinv
  obtain ⟨hopen, -⟩ := State.at_end_of_inputAnswer_none hwf hnone
  have hsupply (item : InputItem) :
      ∃ t, step (s.supplyInput item) = .next t ∧ t.reg rc = inputWord item ∧ SameRegsBut rc s t := by
    have ha := State.inputAnswer_supplyInput hwf hnone item
    rw [State.supplyInput_eq_withInput hopen] at ha ⊢
    exact step_withInput_of_inputAnswer hs hf hd ha
  refine ⟨fun b => ?_, hsupply .endOfStream, ?_⟩
  · obtain ⟨t, ht, hreg, hregs⟩ := hsupply (.byte b)
    exact ⟨t, ht, by rw [hreg, toNat_inputWord_byte], hregs⟩
  · rw [State.closeInput_eq_withInput]
    exact step_withInput_of_inputAnswer hs hf hd (State.inputAnswer_closeInput hnone)

end Sys2Proof.Machine
end

section
/-! The reset, boot and prefetch family of 70_reset_and_hazards.md, with the words of 95_test_vectors.md: the state after the
reset input; which images boot accepts and which words it makes of their bytes; and the prefetching implementation, whose
fetch is the machine's as long as its buffer holds what memory holds. -/

namespace Sys2Proof.Machine

/-! The reset input (70_reset_and_hazards.md R260, 20_memory.md R72) -/

/-- The register file after the reset input is eight zeros (10_state.md R21). -/
theorem State.reg_resetInput (s : State) (image : List Word) (r : Reg) : (s.resetInput image).reg r = 0 := by
  have hregs : (s.resetInput image).regs = Vector.replicate 8 0 := rfl
  simp [State.reg, hregs]

/-- Segment 0 after the reset input is the image (20_memory.md R72). -/
theorem Memory.segment?_resetInput (s : State) (image : List Word) :
    (s.resetInput image).mem.segment? 0 = some (.ofWords image) := rfl

/-- Settles O47: reset writes each item a constant, and segment 0 reads as the image it was made of. -/
theorem resetSetsEveryPieceOfState : Obligations.ResetSetsEveryPieceOfState := by
  intro s image
  exact ⟨rfl, rfl, s.reg_resetInput image, rfl, rfl, rfl, rfl, rfl, rfl, rfl, rfl,
    _, Memory.segment?_resetInput s image, rfl, Segment.read?_ofWords image⟩

/-! Boot (70_reset_and_hazards.md R263, R264) -/

/-- A byte moved to a byte position of a word loses no bit. -/
theorem toNat_shiftLeft_byte (b : Byte) {n : Nat} (hn : n ≤ 24) : (b.setWidth 32 <<< n).toNat = b.toNat <<< n := by
  have hlt : b.toNat * 2 ^ n < 2 ^ 8 * 2 ^ 24 :=
    Nat.mul_lt_mul_of_lt_of_le b.isLt (Nat.pow_le_pow_right (by decide) hn) (by decide)
  simp only [BitVec.toNat_shiftLeft, BitVec.toNat_setWidth_of_le (show 8 ≤ 32 by decide), Nat.shiftLeft_eq]
  exact Nat.mod_eq_of_lt hlt

/-- One image word as a sum: its bytes do not overlap. -/
theorem toNat_imageWord (b0 b1 b2 b3 : Byte) :
    (imageWord b0 b1 b2 b3).toNat = b0.toNat * 2 ^ 24 + b1.toNat * 2 ^ 16 + b2.toNat * 2 ^ 8 + b3.toNat := by
  have h1 := b1.isLt
  have h2 := b2.isLt
  have h3 := b3.isLt
  simp only [imageWord, BitVec.toNat_or, toNat_shiftLeft_byte, Nat.reduceLeDiff]
  rw [BitVec.toNat_setWidth_of_le (by decide), Nat.or_assoc, Nat.or_assoc, ← Nat.shiftLeft_add_eq_or_of_lt h3,
    ← Nat.shiftLeft_add_eq_or_of_lt (by simp only [Nat.shiftLeft_eq]; omega : b2.toNat <<< 8 + b3.toNat < 2 ^ 16),
    ← Nat.shiftLeft_add_eq_or_of_lt
      (by simp only [Nat.shiftLeft_eq]; omega : b1.toNat <<< 16 + (b2.toNat <<< 8 + b3.toNat) < 2 ^ 24)]
  simp only [Nat.shiftLeft_eq]
  omega

/-- Four bytes make one word, so a word list has a quarter of the bytes (R263, R264). -/
theorem length_of_imageWords {bytes : List Byte} {ws : List Word} (h : imageWords bytes = some ws) :
    bytes.length = 4 * ws.length := by
  induction bytes using imageWords.induct generalizing ws with
  | case1 => cases h; rfl
  | case2 b0 b1 b2 b3 rest vs hvs ih =>
    simp only [imageWords, hvs, Option.some.injEq] at h
    subst h
    simp [ih hvs]
    omega
  | case3 b0 b1 b2 b3 rest hnone ih => simp [imageWords, hnone] at h
  | case4 bytes hnil hcons => simp [imageWords] at h

/-- The images of whole words have words (R264). -/
theorem exists_imageWords {bytes : List Byte} (h : bytes.length % 4 = 0) : ∃ ws, imageWords bytes = some ws := by
  induction bytes using imageWords.induct with
  | case1 => exact ⟨[], rfl⟩
  | case2 b0 b1 b2 b3 rest vs hvs ih => exact ⟨imageWord b0 b1 b2 b3 :: vs, by simp only [imageWords, hvs]⟩
  | case3 b0 b1 b2 b3 rest hnone ih =>
    obtain ⟨ws, hws⟩ := ih (by simpa [Nat.add_assoc] using h)
    cases hnone.symm.trans hws
  | case4 bytes hnil hcons =>
    match bytes with
    | [] => exact absurd rfl hnil
    | [_] | [_, _] | [_, _, _] => cases h
    | b0 :: b1 :: b2 :: b3 :: rest => exact absurd rfl (hcons b0 b1 b2 b3 rest)

/-- Word `k` of an image is made of its bytes `4k` to `4k + 3`, in order (R263). -/
theorem imageWords_getElem? {bytes : List Byte} {ws : List Word} (h : imageWords bytes = some ws) {k : Nat}
    {b0 b1 b2 b3 : Byte} (h0 : bytes[4 * k]? = some b0) (h1 : bytes[4 * k + 1]? = some b1)
    (h2 : bytes[4 * k + 2]? = some b2) (h3 : bytes[4 * k + 3]? = some b3) : ws[k]? = some (imageWord b0 b1 b2 b3) := by
  induction bytes using imageWords.induct generalizing ws k with
  | case1 => cases h0
  | case2 c0 c1 c2 c3 rest vs hvs ih =>
    simp only [imageWords, hvs, Option.some.injEq] at h
    subst h
    cases k with
    | zero => simp_all
    | succ k =>
      rw [show 4 * (k + 1) = 4 * k + 4 by omega] at h0 h1 h2 h3
      exact ih hvs (by simpa using h0) (by simpa using h1) (by simpa using h2) (by simpa using h3)
  | case3 c0 c1 c2 c3 rest hnone ih => simp [imageWords, hnone] at h
  | case4 bytes hnil hcons => simp [imageWords] at h

/-- Boot accepts an image that has words, at most as many as a segment holds, and is then the reset input with them. -/
theorem State.boot_eq_some_iff {s t : State} {bytes : List Byte} :
    s.boot bytes = some t ↔
      ∃ ws, imageWords bytes = some ws ∧ ws.length ≤ Config.maxSegmentLen ∧ t = s.resetInput ws := by
  unfold State.boot
  rcases imageWords bytes with _ | ws
  · simp
  · by_cases hlen : ws.length ≤ Config.maxSegmentLen <;> simp [hlen, eq_comm]

/-- Settles O48: segment 0 is the image's words, and word `k` is made of four bytes. -/
theorem bootLoadsTheImageBigEndian : Obligations.BootLoadsTheImageBigEndian := by
  intro s t bytes hboot
  obtain ⟨ws, hws, -, rfl⟩ := State.boot_eq_some_iff.mp hboot
  refine ⟨_, Memory.segment?_resetInput s ws, (length_of_imageWords hws).symm, fun k b0 b1 b2 b3 h0 h1 h2 h3 => ?_⟩
  exact ⟨_, (Segment.read?_ofWords ws k).trans (imageWords_getElem? hws h0 h1 h2 h3), toNat_imageWord b0 b1 b2 b3⟩

/-- Settles O49: an image has words exactly when its bytes divide by four, and the empty segment 0 has no word at `pc = 0`. -/
theorem bootRefusesOddImages : Obligations.BootRefusesOddImages := by
  refine ⟨fun s bytes => ⟨?_, ?_⟩, fun s => ?_⟩
  · rintro ⟨t, hboot⟩
    obtain ⟨ws, hws, hlen, -⟩ := State.boot_eq_some_iff.mp hboot
    have := length_of_imageWords hws
    simp only [Config.maxSegmentLen] at hlen
    omega
  · rintro ⟨hwhole, hlen⟩
    obtain ⟨ws, hws⟩ := exists_imageWords hwhole
    have := length_of_imageWords hws
    exact ⟨_, State.boot_eq_some_iff.mpr ⟨ws, hws, by simp only [Config.maxSegmentLen]; omega, rfl⟩⟩
  · have hfetch : (s.resetInput []).mem.fetch (s.resetInput []).pc = .error .fetchOutOfBounds :=
      (Memory.fetch_of_segment? (Memory.segment?_resetInput s []) _).1 (Nat.zero_le _)
    exact ⟨_, _, State.boot_eq_some_iff.mpr ⟨[], rfl, Nat.zero_le _, rfl⟩, step_of_fetch_error rfl hfetch,
      faultTaken_faultEntry _ _, rfl⟩

/-! The prefetching implementation (70_reset_and_hazards.md R268, 20_memory.md R70) -/

/-- The buffer holds what memory holds. -/
def Prefetcher.BufferValid (p : Prefetcher) : Prop :=
  ∀ off w, p.buffer = some (off, w) → p.machine.mem.fetch off = .ok w

/-- A valid buffer answers what memory would, so the word the implementation runs is the machine's. -/
theorem Prefetcher.fetchWord_eq {p : Prefetcher} (h : p.BufferValid) : p.fetchWord = p.machine.mem.fetch p.machine.pc := by
  unfold Prefetcher.fetchWord
  split
  next off w hbuffer =>
    split
    next hpc => rw [← hpc, h off w hbuffer]
    next => rfl
  next => rfl

theorem fetch_of_prefetchFrom {m : Memory} {off off' w : Word} (h : prefetchFrom m off = some (off', w)) :
    off' = off ∧ m.fetch off = .ok w := by
  unfold prefetchFrom at h
  split at h
  next hfetch => cases h; exact ⟨rfl, hfetch⟩
  next => cases h

/-- The data-port request of an instruction that does not drop the prefetched word of `off` leaves that word as it is: only a
STORE to it and a LOADP can change it, since no other request writes into segment 0 (20_memory.md R70). -/
theorem fetch_memAfterRequest {i : Instr} {s : State} {off : Word} (hwf : s.mem.wf = true)
    (hkeep : dropsPrefetch i s off = false) : (memAfterRequest i s).fetch off = s.mem.fetch off := by
  cases i with
  | cmov | add | mul | div | nand | halt | inp | li => rfl
  | load ra rb rc => rw [memAfterRequest_load]
  | out rc => rw [memAfterRequest_out]
  | store ra rb rc =>
    rw [memAfterRequest_store]
    rcases he : s.mem.memWrite (s.reg ra) (s.reg rb) (s.reg rc) with code | m
    · rfl
    · have hne : 0#32 ≠ s.reg ra ∨ off ≠ s.reg rb :=
        not_and_or.mp fun ⟨hid, hoff⟩ => by simp [dropsPrefetch, ← hid, ← hoff] at hkeep
      exact Memory.fetch_congr (Memory.memRead_memWrite_of_ne he hne)
  | map rb rc =>
    rw [memAfterRequest_map]
    rcases he : s.mem.segAlloc (s.allocOracle (s.reg rc)) (s.reg rc) with code | ⟨id, m⟩
    · rfl
    · obtain ⟨hne, -, -, hother⟩ := Memory.segAlloc_segment? hwf he
      exact Memory.fetch_congr (Memory.memRead_congr (hother 0#32 hne.symm) off)
  | unmap rc =>
    rw [memAfterRequest_unmap]
    rcases he : s.mem.segFree (s.reg rc) with code | m
    · rfl
    · obtain ⟨hne, -, -, -, -, hother⟩ := Memory.segFree_segment? he
      exact Memory.fetch_congr (Memory.memRead_congr (hother 0#32 hne.symm) off)
  | loadp rb rc => cases hkeep

/-- The word prefetched before the instruction is the word there after it, unless the instruction drops it. -/
theorem exec_fetch_of_keepsPrefetch {i : Instr} {s t : State} {off : Word} (hwf : s.mem.wf = true)
    (h : exec i s = .next t) (hkeep : dropsPrefetch i s off = false) : t.mem.fetch off = s.mem.fetch off := by
  obtain ⟨code, rfl, -⟩ | hc := exec_next_cases h
  · rfl
  · rw [hc.mem, fetch_memAfterRequest hwf hkeep]

/-- The buffer after an instruction runs in `s`: the next word as memory held it, or nothing when the instruction drops it. -/
def bufferAfter (i : Instr) (s : State) : Option (Word × Word) :=
  if dropsPrefetch i s (s.pc + 1#32) then none else prefetchFrom s.mem (s.pc + 1#32)

theorem bufferValid_bufferAfter {i : Instr} {s t : State} (hwf : s.mem.wf = true) (h : exec i s = .next t) :
    Prefetcher.BufferValid { machine := t, buffer := bufferAfter i s } := by
  intro off w hbuffer
  unfold bufferAfter at hbuffer
  split at hbuffer
  next => cases hbuffer
  next hkeep =>
    obtain ⟨rfl, hfetch⟩ := fetch_of_prefetchFrom hbuffer
    exact (exec_fetch_of_keepsPrefetch hwf h (by simpa using hkeep)).trans hfetch

/-- What one cycle of the implementation can do beside the machine's step, while its buffer is valid: both take a fault, both
complete an instruction, or neither steps. -/
theorem Prefetcher.step_cases {p : Prefetcher} (hp : p.BufferValid) :
    (∃ code, Machine.step p.machine = .next (p.machine.faultEntry code) ∧
      p.step = .next { machine := p.machine.faultEntry code, buffer := none }) ∨
    (∃ i t, exec i p.machine = .next t ∧ Machine.step p.machine = .next t ∧
      p.step = .next { machine := t, buffer := bufferAfter i p.machine }) ∨
    (∃ f, Machine.step p.machine = .fault f ∧ p.step = .fault f) := by
  cases hs : p.machine.status with
  | halted => exact .inr (.inr ⟨_, step_of_halted hs, by simp [Prefetcher.step, hs]⟩)
  | faulted => exact .inr (.inr ⟨_, step_of_faulted hs, by simp [Prefetcher.step, hs]⟩)
  | running =>
    have hfetch := Prefetcher.fetchWord_eq hp
    rw [step_eq_of_running hs]
    obtain ⟨code, hf, e⟩ | ⟨w, err, hf, hd, e⟩ | ⟨w, i, hf, hd, e⟩ := runCycle_cases p.machine <;> rw [hf] at hfetch
    · exact .inl ⟨code, e, by simp [Prefetcher.step, hs, hfetch]⟩
    · exact .inl ⟨_, e, by simp [Prefetcher.step, hs, hfetch, hd]⟩
    · rw [e]
      obtain ⟨t, ht⟩ | ⟨rc, rfl, ha⟩ := exec_next_or_input_hold i p.machine
      · exact .inr (.inl ⟨i, t, ht, ht, by simp only [Prefetcher.step, hs, hfetch, hd, ht, bufferAfter]⟩)
      · have hhold := exec_inp_holds (rc := rc) ha
        exact .inr (.inr ⟨_, hhold, by simp only [Prefetcher.step, hs, hfetch, hd, hhold]⟩)

/-- Settles O53: the three cases of a cycle, with the buffer after each. -/
theorem prefetchingIsIndistinguishable : Obligations.PrefetchingIsIndistinguishable := by
  intro p hwf hp
  obtain ⟨code, hm, hq⟩ | ⟨i, u, hexec, hm, hq⟩ | ⟨g, hm, hq⟩ := Prefetcher.step_cases hp <;> rw [hm, hq]
  · refine ⟨?_, nofun, nofun⟩
    rintro t ⟨⟩
    exact ⟨_, rfl, rfl, nofun⟩
  · refine ⟨?_, nofun, nofun⟩
    rintro t ⟨⟩
    exact ⟨_, rfl, rfl, bufferValid_bufferAfter hwf hexec⟩
  · refine ⟨nofun, ?_, nofun⟩
    rintro f ⟨⟩
    rfl

end Sys2Proof.Machine

namespace Sys2Proof

/-! The words of 95_test_vectors.md section 2.1 -/

/-- Settles O8: each word has the opcode and the fields of the instruction the spec says it stands for. -/
theorem specWordsDecode : Obligations.SpecWordsDecode :=
  ⟨decode_of_opcode rfl ⟨rfl, rfl, rfl⟩, decode_of_opcode rfl ⟨rfl, rfl, rfl⟩, decode_of_opcode rfl ⟨rfl, rfl, rfl⟩,
    decode_of_opcode rfl trivial, decode_of_opcode rfl ⟨rfl, rfl⟩, decode_of_opcode rfl ⟨rfl, rfl⟩,
    decode_of_opcode rfl ⟨rfl, rfl⟩, decode_of_opcode rfl ⟨rfl, rfl⟩⟩

end Sys2Proof
end
